-- ==== Sys2Proof/Word.lean ====
section
/-! DEFINITION. The value types of the machine (00_scope.md R8, R11): bytes, 16-bit words, 12-bit
addresses of an encoded instruction, register numbers, and the fixed sizes. -/

namespace Sys2Proof

/-- An 8-bit unsigned value: a V register, a timer, a memory byte, an immediate `nn` (R11). -/
abbrev Byte := BitVec 8

/-- A 16-bit unsigned value: `I`, `PC`, a stack entry, an instruction word (R11). -/
abbrev Word := BitVec 16

/-- The 12-bit address field `nnn` of an instruction (R71). -/
abbrev Addr12 := BitVec 12

/-- A register number, V0 to VF (R21). -/
abbrev Reg := Fin 16

/-- A sprite height, the field `n` of `Dxyn`: a count 0..15 (R72). -/
abbrev Height := Fin 16

/-- VF is `V[15]` (R12). -/
abbrev regF : Reg := 15

/-- V0, read implicitly by `Bnnn` (R21). -/
abbrev reg0 : Reg := 0

/-- MEM_SIZE: 4096 bytes, addresses 0x000-0xFFF (R8). -/
abbrev memSize : Nat := 4096

/-- FONT_SIZE: the font is `MEM[0x000..0x04F]` (R8). -/
abbrev fontSize : Nat := 80

/-- PROG_BASE: where a program is loaded, and PC after reset (R8). -/
abbrev progBase : Nat := 0x200

/-- ROM_MAX: 4096 - 0x200 (R8). -/
abbrev romMax : Nat := 3584

/-- FB_W: columns of the framebuffer (R8). -/
abbrev fbWidth : Nat := 64

/-- FB_H: rows of the framebuffer (R8). -/
abbrev fbHeight : Nat := 32

/-- The framebuffer's 2048 cells (R8). -/
abbrev fbCells : Nat := 2048

end Sys2Proof
end

