-- ==== Sys2Proof/Syntax.lean ====
section
/-! DEFINITION. The instruction set: one constructor per row of spec/opcode_table.json, in its order
(30_encoding.md R75). Operand widths are in the operand types. -/

namespace Sys2Proof

/-- The 34 instructions of R75. -/
inductive Instr where
  /-- `00E0` CLS (R221). -/
  | cls
  /-- `00EE` RET (R131). -/
  | ret
  /-- `1nnn` JP nnn (R132). -/
  | jp (nnn : Addr12)
  /-- `2nnn` CALL nnn (R133). -/
  | call (nnn : Addr12)
  /-- `3xnn` SE Vx, nn (R134). -/
  | seImm (x : Reg) (nn : Byte)
  /-- `4xnn` SNE Vx, nn (R135). -/
  | sneImm (x : Reg) (nn : Byte)
  /-- `5xy0` SE Vx, Vy (R136). -/
  | seReg (x y : Reg)
  /-- `9xy0` SNE Vx, Vy (R137). -/
  | sneReg (x y : Reg)
  /-- `6xnn` LD Vx, nn (R161). -/
  | ldImm (x : Reg) (nn : Byte)
  /-- `7xnn` ADD Vx, nn (R162). -/
  | addImm (x : Reg) (nn : Byte)
  /-- `8xy0` LD Vx, Vy (R163). -/
  | ldReg (x y : Reg)
  /-- `8xy1` OR Vx, Vy (R164). -/
  | or (x y : Reg)
  /-- `8xy2` AND Vx, Vy (R165). -/
  | and (x y : Reg)
  /-- `8xy3` XOR Vx, Vy (R166). -/
  | xor (x y : Reg)
  /-- `8xy4` ADD Vx, Vy (R167). -/
  | addReg (x y : Reg)
  /-- `8xy5` SUB Vx, Vy (R168). -/
  | sub (x y : Reg)
  /-- `8xy6` SHR Vx, Vy (R169); `y` is encoded and not read. -/
  | shr (x y : Reg)
  /-- `8xy7` SUBN Vx, Vy (R170). -/
  | subn (x y : Reg)
  /-- `8xyE` SHL Vx, Vy (R171); `y` is encoded and not read. -/
  | shl (x y : Reg)
  /-- `Annn` LD I, nnn (R200). -/
  | ldI (nnn : Addr12)
  /-- `Bnnn` JP V0, nnn (R138). -/
  | jpV0 (nnn : Addr12)
  /-- `Cxnn` RND Vx, nn (R172). -/
  | rnd (x : Reg) (nn : Byte)
  /-- `Dxyn` DRW Vx, Vy, n (R222). -/
  | drw (x y : Reg) (n : Height)
  /-- `Ex9E` SKP Vx (R240). -/
  | skp (x : Reg)
  /-- `ExA1` SKNP Vx (R241). -/
  | sknp (x : Reg)
  /-- `Fx07` LD Vx, DT (R242). -/
  | ldVxDt (x : Reg)
  /-- `Fx0A` LD Vx, K (R243). -/
  | ldVxK (x : Reg)
  /-- `Fx15` LD DT, Vx (R244). -/
  | ldDtVx (x : Reg)
  /-- `Fx18` LD ST, Vx (R245). -/
  | ldStVx (x : Reg)
  /-- `Fx1E` ADD I, Vx (R201). -/
  | addIVx (x : Reg)
  /-- `Fx29` LD F, Vx (R202). -/
  | ldFVx (x : Reg)
  /-- `Fx33` LD B, Vx (R203). -/
  | ldBVx (x : Reg)
  /-- `Fx55` LD [I], Vx (R204). -/
  | ldMemVx (x : Reg)
  /-- `Fx65` LD Vx, [I] (R205). -/
  | ldVxMem (x : Reg)
  deriving DecidableEq, Repr

end Sys2Proof
end

