-- ==== Sys2Proof/WellFormed.lean ====
section
/-! DEFINITION. Well-formedness: the operand ranges of 30_encoding.md R71, checked on operands written
as plain numbers, and the size limit of a program image (70_reset_and_hazards.md R303). The operand
types of `Instr` already carry their ranges, so every term of `Instr` passes; the checks themselves
refuse what an assembler could write wrongly. -/

namespace Sys2Proof

/-- An operand as a plain number, by the field of R71 that encodes it. -/
inductive Operand where
  /-- A register number, field `x` or `y`: 4 bits. -/
  | reg (k : Nat)
  /-- A sprite height, field `n`: 4 bits. -/
  | height (k : Nat)
  /-- An immediate, field `nn`: 8 bits. -/
  | imm8 (k : Nat)
  /-- An address, field `nnn`: 12 bits. -/
  | addr (k : Nat)
  deriving DecidableEq, Repr

/-- The operand fits the width R71 gives its field. -/
def Operand.inRange : Operand → Bool
  | .reg k => decide (k < 16)
  | .height k => decide (k < 16)
  | .imm8 k => decide (k < 256)
  | .addr k => decide (k < 4096)

/-- The operands of an instruction, in the order of its syntax (R75). -/
def Instr.operands : Instr → List Operand
  | .cls => []
  | .ret => []
  | .jp a => [.addr a.toNat]
  | .call a => [.addr a.toNat]
  | .seImm x nn => [.reg x, .imm8 nn.toNat]
  | .sneImm x nn => [.reg x, .imm8 nn.toNat]
  | .seReg x y => [.reg x, .reg y]
  | .sneReg x y => [.reg x, .reg y]
  | .ldImm x nn => [.reg x, .imm8 nn.toNat]
  | .addImm x nn => [.reg x, .imm8 nn.toNat]
  | .ldReg x y => [.reg x, .reg y]
  | .or x y => [.reg x, .reg y]
  | .and x y => [.reg x, .reg y]
  | .xor x y => [.reg x, .reg y]
  | .addReg x y => [.reg x, .reg y]
  | .sub x y => [.reg x, .reg y]
  | .shr x y => [.reg x, .reg y]
  | .subn x y => [.reg x, .reg y]
  | .shl x y => [.reg x, .reg y]
  | .ldI a => [.addr a.toNat]
  | .jpV0 a => [.reg reg0, .addr a.toNat]
  | .rnd x nn => [.reg x, .imm8 nn.toNat]
  | .drw x y n => [.reg x, .reg y, .height n]
  | .skp x => [.reg x]
  | .sknp x => [.reg x]
  | .ldVxDt x => [.reg x]
  | .ldVxK x => [.reg x]
  | .ldDtVx x => [.reg x]
  | .ldStVx x => [.reg x]
  | .addIVx x => [.reg x]
  | .ldFVx x => [.reg x]
  | .ldBVx x => [.reg x]
  | .ldMemVx x => [.reg x]
  | .ldVxMem x => [.reg x]

/-- Every operand fits its field (R71). -/
def Instr.wf (i : Instr) : Bool := i.operands.all Operand.inRange

/-- The image fits the program area: at most ROM_MAX bytes (R303). -/
def romFits (bytes : List Byte) : Bool := decide (bytes.length ≤ romMax)

end Sys2Proof
end

