-- ==== Sys2Proof/Decode.lean ====
section
/-! DEFINITION. The decoder and the encoder (30_encoding.md): fields of a word (R71), dispatch by
family selector and secondary selector (R73, R76), the byte-level decoder, the encoder, and the opcode
map as a table of masks (R74, R75). -/

namespace Sys2Proof

/-! ### Fields of a word (R71) -/

/-- `op`, bits 15:12. -/
def opField (w : Word) : BitVec 4 := w.extractLsb' 12 4

/-- `n`, bits 3:0. -/
def nField (w : Word) : BitVec 4 := w.extractLsb' 0 4

/-- `nn`, bits 7:0. -/
def nnField (w : Word) : Byte := w.extractLsb' 0 8

/-- `nnn`, bits 11:0. -/
def nnnField (w : Word) : Addr12 := w.extractLsb' 0 12

/-- `x`, bits 11:8, as a register number. -/
def xField (w : Word) : Reg := ⟨(w.extractLsb' 8 4).toNat, (w.extractLsb' 8 4).isLt⟩

/-- `y`, bits 7:4, as a register number. -/
def yField (w : Word) : Reg := ⟨(w.extractLsb' 4 4).toNat, (w.extractLsb' 4 4).isLt⟩

/-- `n`, bits 3:0, as a sprite height. -/
def heightField (w : Word) : Height := ⟨(nField w).toNat, (nField w).isLt⟩

/-! ### Decode -/

/-- Family 0 matches the whole word (R76). -/
def decodeFamily0 (w : Word) : Option Instr :=
  if w = 0x00E0#16 then some .cls
  else if w = 0x00EE#16 then some .ret
  else none

/-- Family 8: the secondary selector is the low nibble (R76). -/
def decodeFamily8 (w : Word) : Option Instr :=
  match nField w with
  | 0x0#4 => some (.ldReg (xField w) (yField w))
  | 0x1#4 => some (.or (xField w) (yField w))
  | 0x2#4 => some (.and (xField w) (yField w))
  | 0x3#4 => some (.xor (xField w) (yField w))
  | 0x4#4 => some (.addReg (xField w) (yField w))
  | 0x5#4 => some (.sub (xField w) (yField w))
  | 0x6#4 => some (.shr (xField w) (yField w))
  | 0x7#4 => some (.subn (xField w) (yField w))
  | 0xE#4 => some (.shl (xField w) (yField w))
  | _ => none

/-- Family E: the secondary selector is the low byte (R76). -/
def decodeFamilyE (w : Word) : Option Instr :=
  match nnField w with
  | 0x9E#8 => some (.skp (xField w))
  | 0xA1#8 => some (.sknp (xField w))
  | _ => none

/-- Family F: the secondary selector is the low byte (R76). -/
def decodeFamilyF (w : Word) : Option Instr :=
  match nnField w with
  | 0x07#8 => some (.ldVxDt (xField w))
  | 0x0A#8 => some (.ldVxK (xField w))
  | 0x15#8 => some (.ldDtVx (xField w))
  | 0x18#8 => some (.ldStVx (xField w))
  | 0x1E#8 => some (.addIVx (xField w))
  | 0x29#8 => some (.ldFVx (xField w))
  | 0x33#8 => some (.ldBVx (xField w))
  | 0x55#8 => some (.ldMemVx (xField w))
  | 0x65#8 => some (.ldVxMem (xField w))
  | _ => none

/-- Decode a word by its family selector (R76); `none` is an unknown word (R78). -/
def decodeWord (w : Word) : Option Instr :=
  match opField w with
  | 0x0#4 => decodeFamily0 w
  | 0x1#4 => some (.jp (nnnField w))
  | 0x2#4 => some (.call (nnnField w))
  | 0x3#4 => some (.seImm (xField w) (nnField w))
  | 0x4#4 => some (.sneImm (xField w) (nnField w))
  | 0x5#4 => if nField w = 0x0#4 then some (.seReg (xField w) (yField w)) else none
  | 0x6#4 => some (.ldImm (xField w) (nnField w))
  | 0x7#4 => some (.addImm (xField w) (nnField w))
  | 0x8#4 => decodeFamily8 w
  | 0x9#4 => if nField w = 0x0#4 then some (.sneReg (xField w) (yField w)) else none
  | 0xA#4 => some (.ldI (nnnField w))
  | 0xB#4 => some (.jpV0 (nnnField w))
  | 0xC#4 => some (.rnd (xField w) (nnField w))
  | 0xD#4 => some (.drw (xField w) (yField w) (heightField w))
  | 0xE#4 => decodeFamilyE w
  | 0xF#4 => decodeFamilyF w
  | _ => none

/-- Why the decoder gives no instruction. -/
inductive DecodeError where
  /-- The word matches no row of R75 (R78). -/
  | unknownOpcode (w : Word)
  /-- Fewer than two bytes were given: every instruction is two bytes long (R81). -/
  | truncated (have_ : Nat)
  deriving DecidableEq, Repr

/-- The word of two fetched bytes: the first is bits 15:8 (R52). -/
def wordOfBytes (hi lo : Byte) : Word := hi ++ lo

/-- Decode the first instruction of a byte sequence and give the bytes after it: exactly two bytes are
consumed (R81), the word is big-endian (R52). -/
def decode : List Byte → Except DecodeError (Instr × List Byte)
  | [] => .error (.truncated 0)
  | [_] => .error (.truncated 1)
  | hi :: lo :: rest =>
    match decodeWord (wordOfBytes hi lo) with
    | some i => .ok (i, rest)
    | none => .error (.unknownOpcode (wordOfBytes hi lo))

/-! ### Encode -/

/-- A register number as a 4-bit field (R71). -/
def regBits (r : Reg) : BitVec 4 := BitVec.ofNat 4 r.val

/-- A sprite height as a 4-bit field (R71). -/
def heightBits (n : Height) : BitVec 4 := BitVec.ofNat 4 n.val

/-- The layout `op | x | y | n` (R71). -/
def packXYN (op x y n : BitVec 4) : Word := op ++ x ++ y ++ n

/-- The layout `op | x | nn` (R71). -/
def packXNN (op x : BitVec 4) (nn : Byte) : Word := op ++ x ++ nn

/-- The layout `op | nnn` (R71). -/
def packNNN (op : BitVec 4) (nnn : Addr12) : Word := op ++ nnn

/-- The word of an instruction: its pattern of R75 with the operands in their fields (R82). -/
def encodeWord : Instr → Word
  | .cls => 0x00E0#16
  | .ret => 0x00EE#16
  | .jp a => packNNN 0x1#4 a
  | .call a => packNNN 0x2#4 a
  | .seImm x nn => packXNN 0x3#4 (regBits x) nn
  | .sneImm x nn => packXNN 0x4#4 (regBits x) nn
  | .seReg x y => packXYN 0x5#4 (regBits x) (regBits y) 0x0#4
  | .sneReg x y => packXYN 0x9#4 (regBits x) (regBits y) 0x0#4
  | .ldImm x nn => packXNN 0x6#4 (regBits x) nn
  | .addImm x nn => packXNN 0x7#4 (regBits x) nn
  | .ldReg x y => packXYN 0x8#4 (regBits x) (regBits y) 0x0#4
  | .or x y => packXYN 0x8#4 (regBits x) (regBits y) 0x1#4
  | .and x y => packXYN 0x8#4 (regBits x) (regBits y) 0x2#4
  | .xor x y => packXYN 0x8#4 (regBits x) (regBits y) 0x3#4
  | .addReg x y => packXYN 0x8#4 (regBits x) (regBits y) 0x4#4
  | .sub x y => packXYN 0x8#4 (regBits x) (regBits y) 0x5#4
  | .shr x y => packXYN 0x8#4 (regBits x) (regBits y) 0x6#4
  | .subn x y => packXYN 0x8#4 (regBits x) (regBits y) 0x7#4
  | .shl x y => packXYN 0x8#4 (regBits x) (regBits y) 0xE#4
  | .ldI a => packNNN 0xA#4 a
  | .jpV0 a => packNNN 0xB#4 a
  | .rnd x nn => packXNN 0xC#4 (regBits x) nn
  | .drw x y n => packXYN 0xD#4 (regBits x) (regBits y) (heightBits n)
  | .skp x => packXNN 0xE#4 (regBits x) 0x9E#8
  | .sknp x => packXNN 0xE#4 (regBits x) 0xA1#8
  | .ldVxDt x => packXNN 0xF#4 (regBits x) 0x07#8
  | .ldVxK x => packXNN 0xF#4 (regBits x) 0x0A#8
  | .ldDtVx x => packXNN 0xF#4 (regBits x) 0x15#8
  | .ldStVx x => packXNN 0xF#4 (regBits x) 0x18#8
  | .addIVx x => packXNN 0xF#4 (regBits x) 0x1E#8
  | .ldFVx x => packXNN 0xF#4 (regBits x) 0x29#8
  | .ldBVx x => packXNN 0xF#4 (regBits x) 0x33#8
  | .ldMemVx x => packXNN 0xF#4 (regBits x) 0x55#8
  | .ldVxMem x => packXNN 0xF#4 (regBits x) 0x65#8

/-- The upper byte of a word, the one at the lower address (R52). -/
def highByte (w : Word) : Byte := w.extractLsb' 8 8

/-- The lower byte of a word, the one at the higher address (R52). -/
def lowByte (w : Word) : Byte := w.extractLsb' 0 8

/-- The two bytes of a word as memory holds them (R52). -/
def bytesOfWord (w : Word) : List Byte := [highByte w, lowByte w]

/-- The bytes of an instruction. -/
def encode (i : Instr) : List Byte := bytesOfWord (encodeWord i)

/-! ### The opcode map as a table (R74, R75) -/

/-- One row of R75: a word matches the row when `w AND mask = pattern` (R74). -/
structure OpcodeRow where
  pattern : Word
  mask : Word
  deriving DecidableEq, Repr

/-- The word matches the row (R74). -/
def OpcodeRow.matchesWord (r : OpcodeRow) (w : Word) : Bool := (w &&& r.mask) == r.pattern

/-- The row of R75 that stands for an instruction. -/
def Instr.row : Instr → OpcodeRow
  | .cls => ⟨0x00E0#16, 0xFFFF#16⟩
  | .ret => ⟨0x00EE#16, 0xFFFF#16⟩
  | .jp _ => ⟨0x1000#16, 0xF000#16⟩
  | .call _ => ⟨0x2000#16, 0xF000#16⟩
  | .seImm _ _ => ⟨0x3000#16, 0xF000#16⟩
  | .sneImm _ _ => ⟨0x4000#16, 0xF000#16⟩
  | .seReg _ _ => ⟨0x5000#16, 0xF00F#16⟩
  | .sneReg _ _ => ⟨0x9000#16, 0xF00F#16⟩
  | .ldImm _ _ => ⟨0x6000#16, 0xF000#16⟩
  | .addImm _ _ => ⟨0x7000#16, 0xF000#16⟩
  | .ldReg _ _ => ⟨0x8000#16, 0xF00F#16⟩
  | .or _ _ => ⟨0x8001#16, 0xF00F#16⟩
  | .and _ _ => ⟨0x8002#16, 0xF00F#16⟩
  | .xor _ _ => ⟨0x8003#16, 0xF00F#16⟩
  | .addReg _ _ => ⟨0x8004#16, 0xF00F#16⟩
  | .sub _ _ => ⟨0x8005#16, 0xF00F#16⟩
  | .shr _ _ => ⟨0x8006#16, 0xF00F#16⟩
  | .subn _ _ => ⟨0x8007#16, 0xF00F#16⟩
  | .shl _ _ => ⟨0x800E#16, 0xF00F#16⟩
  | .ldI _ => ⟨0xA000#16, 0xF000#16⟩
  | .jpV0 _ => ⟨0xB000#16, 0xF000#16⟩
  | .rnd _ _ => ⟨0xC000#16, 0xF000#16⟩
  | .drw _ _ _ => ⟨0xD000#16, 0xF000#16⟩
  | .skp _ => ⟨0xE09E#16, 0xF0FF#16⟩
  | .sknp _ => ⟨0xE0A1#16, 0xF0FF#16⟩
  | .ldVxDt _ => ⟨0xF007#16, 0xF0FF#16⟩
  | .ldVxK _ => ⟨0xF00A#16, 0xF0FF#16⟩
  | .ldDtVx _ => ⟨0xF015#16, 0xF0FF#16⟩
  | .ldStVx _ => ⟨0xF018#16, 0xF0FF#16⟩
  | .addIVx _ => ⟨0xF01E#16, 0xF0FF#16⟩
  | .ldFVx _ => ⟨0xF029#16, 0xF0FF#16⟩
  | .ldBVx _ => ⟨0xF033#16, 0xF0FF#16⟩
  | .ldMemVx _ => ⟨0xF055#16, 0xF0FF#16⟩
  | .ldVxMem _ => ⟨0xF065#16, 0xF0FF#16⟩

/-- The 34 rows of R75, in the table's order. -/
def opcodeTable : List OpcodeRow :=
  [⟨0x00E0#16, 0xFFFF#16⟩, ⟨0x00EE#16, 0xFFFF#16⟩, ⟨0x1000#16, 0xF000#16⟩, ⟨0x2000#16, 0xF000#16⟩,
   ⟨0x3000#16, 0xF000#16⟩, ⟨0x4000#16, 0xF000#16⟩, ⟨0x5000#16, 0xF00F#16⟩, ⟨0x9000#16, 0xF00F#16⟩,
   ⟨0x6000#16, 0xF000#16⟩, ⟨0x7000#16, 0xF000#16⟩] ++
  [⟨0x8000#16, 0xF00F#16⟩, ⟨0x8001#16, 0xF00F#16⟩, ⟨0x8002#16, 0xF00F#16⟩, ⟨0x8003#16, 0xF00F#16⟩,
   ⟨0x8004#16, 0xF00F#16⟩, ⟨0x8005#16, 0xF00F#16⟩, ⟨0x8006#16, 0xF00F#16⟩, ⟨0x8007#16, 0xF00F#16⟩,
   ⟨0x800E#16, 0xF00F#16⟩] ++
  [⟨0xA000#16, 0xF000#16⟩, ⟨0xB000#16, 0xF000#16⟩, ⟨0xC000#16, 0xF000#16⟩, ⟨0xD000#16, 0xF000#16⟩,
   ⟨0xE09E#16, 0xF0FF#16⟩, ⟨0xE0A1#16, 0xF0FF#16⟩] ++
  [⟨0xF007#16, 0xF0FF#16⟩, ⟨0xF00A#16, 0xF0FF#16⟩, ⟨0xF015#16, 0xF0FF#16⟩, ⟨0xF018#16, 0xF0FF#16⟩,
   ⟨0xF01E#16, 0xF0FF#16⟩, ⟨0xF029#16, 0xF0FF#16⟩, ⟨0xF033#16, 0xF0FF#16⟩, ⟨0xF055#16, 0xF0FF#16⟩,
   ⟨0xF065#16, 0xF0FF#16⟩]

/-! ### The host's entry to the decoder -/

/-- The word that stands for bits `nbits-1..0` of `w`, the bits above them zero: an instruction is one
16-bit word, so bit `k` of `w` is bit `k` of the word. -/
def tableWord (nbits w : Nat) : Word := BitVec.ofNat 16 (w % 2 ^ nbits)

/-- The instruction the byte decoder reads from that word's two bytes as memory holds them. -/
def decodeTableWord (nbits w : Nat) : Option Instr :=
  match decode (bytesOfWord (tableWord nbits w)) with
  | .ok (i, _) => some i
  | .error _ => none

end Sys2Proof
end

