-- ==== Sys2Proof/Config.lean ====
section
/-! DEFINITION. What the spec leaves to the implementation: the named parameters of 00_scope.md R9
(FONT, JUMP_MASK, FONT_WRITE_POLICY) as plain data, and RND as a free value with no body. -/

namespace Sys2Proof

/-- JUMP_MASK, the mask of `1nnn` (R84): its two legal values. -/
inductive JumpMask where
  /-- 0x0FFF, the spec default: the target is `nnn`. -/
  | m0FFF
  /-- 0x0F00, "for compatibility testing": the low byte of the target is cut off. -/
  | m0F00
  deriving DecidableEq, Repr

/-- The mask as a word (R84). -/
def JumpMask.bits : JumpMask → Word
  | .m0FFF => 0x0FFF#16
  | .m0F00 => 0x0F00#16

/-- FONT_WRITE_POLICY, what a program's store into `MEM[0x000..0x04F]` does (R59). -/
inductive FontWritePolicy where
  /-- The store happens like any other (the spec default). -/
  | write
  /-- The store raises `InvalidMemoryAccess` before it writes anything. -/
  | fault
  deriving DecidableEq, Repr

/-- One font glyph: 5 rows of 8 pixels (R33). -/
abbrev Glyph := Vector Byte 5

/-- The parameters R9 leaves to the model. They are fixed for one machine: no step changes them
(notes/assumptions/1.md). -/
structure Params where
  /-- FONT: 16 glyphs of 5 bytes (R33). -/
  font : Vector Glyph 16
  /-- JUMP_MASK (R84). -/
  jumpMask : JumpMask
  /-- FONT_WRITE_POLICY (R59). -/
  fontWritePolicy : FontWritePolicy
  deriving DecidableEq, Repr

/-- The default of FONT, row by row from the table of R33. -/
def Config.standardFont : Vector Glyph 16 := #v[
  #v[0xF0#8, 0x90#8, 0x90#8, 0x90#8, 0xF0#8],   -- 0
  #v[0x20#8, 0x60#8, 0x20#8, 0x20#8, 0x70#8],   -- 1
  #v[0xF0#8, 0x10#8, 0xF0#8, 0x80#8, 0xF0#8],   -- 2
  #v[0xF0#8, 0x10#8, 0xF0#8, 0x10#8, 0xF0#8],   -- 3
  #v[0x90#8, 0x90#8, 0xF0#8, 0x10#8, 0x10#8],   -- 4
  #v[0xF0#8, 0x80#8, 0xF0#8, 0x10#8, 0xF0#8],   -- 5
  #v[0xF0#8, 0x80#8, 0xF0#8, 0x90#8, 0xF0#8],   -- 6
  #v[0xF0#8, 0x10#8, 0x20#8, 0x40#8, 0x40#8],   -- 7
  #v[0xF0#8, 0x90#8, 0xF0#8, 0x90#8, 0xF0#8],   -- 8
  #v[0xF0#8, 0x90#8, 0xF0#8, 0x10#8, 0xF0#8],   -- 9
  #v[0xF0#8, 0x90#8, 0xF0#8, 0x90#8, 0x90#8],   -- A
  #v[0xE0#8, 0x90#8, 0xE0#8, 0x90#8, 0xE0#8],   -- B
  #v[0xF0#8, 0x80#8, 0x80#8, 0x80#8, 0xF0#8],   -- C
  #v[0xE0#8, 0x90#8, 0x90#8, 0x90#8, 0xE0#8],   -- D
  #v[0xF0#8, 0x80#8, 0xF0#8, 0x80#8, 0xF0#8],   -- E
  #v[0xF0#8, 0x80#8, 0xF0#8, 0x80#8, 0x80#8]]   -- F

/-- The spec default of every parameter (R9). -/
def Params.default : Params :=
  { font := Config.standardFont, jumpMask := .m0FFF, fontWritePolicy := .write }

/-- RND, the random byte of a cycle: a free value under no law (R9, R113, D20). It has no body, so no
proof can know one of its values or relate two of them; the machine applies it to the number of the
cycle (notes/assumptions/2.md). -/
opaque Config.randomByte : Nat → Byte

end Sys2Proof
end

