-- ==== Sys2Proof/Machine/State.lean ====
section
/-! DEFINITION. The state of the machine (10_state.md R20), the conditions a cycle can end in
(60_exceptions.md R261), and the state after reset (R39). -/

namespace Sys2Proof.Machine

/-- A fatal condition: status codes 2 to 6 of R261. A cycle that raises one commits nothing, so a step
that ends in a fault leaves the machine in the state the step began in (R111, R262). Each is SAFE: the
spec itself ends the cycle there. -/
inductive Fault where
  /-- Code 2: `2nnn` with SP = 16, at this PC (R133). Safe. -/
  | stackOverflow (pc : Word)
  /-- Code 3: `00EE` with SP = 0, at this PC (R131). Safe. -/
  | stackUnderflow (pc : Word)
  /-- Code 4: a fetch with PC > 0xFFE, at this PC (R102). Safe. -/
  | invalidFetch (pc : Word)
  /-- Code 5: `Dxyn`, `Fx33`, `Fx55` or `Fx65` with a data address above 0xFFF, or `Fx33` or `Fx55`
  with one in the font range under FONT_WRITE_POLICY = fault; the lowest such address (R56, R59). Safe. -/
  | invalidMemoryAccess (addr : Nat)
  /-- Code 6: `Ex9E` or `ExA1` with this `V[x]` above 15 (R240, R241). Safe. -/
  | invalidKeyIndex (k : Byte)
  deriving DecidableEq, Repr

/-- What the model gives no meaning. -/
inductive Refusal where
  /-- Raised by `exec` for an instruction that has no meaning yet; none is left. Safe. -/
  | notModelled (mnemonic : String)
  /-- Raised by a cycle on a state that was created and never reset: "a model refuses to run a cycle on
  it" (R305). Safe. -/
  | cycleBeforeReset
  /-- Raised by the load command on a state that a cycle or another load has touched since the last
  reset: "A model refuses a load issued on any other state" (R304). Safe. -/
  | loadNotFresh
  deriving DecidableEq, Repr

/-- The `status` output of a cycle (R261, R276). -/
inductive Status where
  /-- Code 0. -/
  | ok
  /-- Code 1, not fatal: the unknown word and its address (R263). -/
  | unknownOpcode (w pc : Word)
  /-- Codes 2 to 6. -/
  | fatal (f : Fault)
  deriving DecidableEq, Repr

/-- The outputs of a cycle (R276). -/
structure Outputs where
  status : Status
  /-- The framebuffer was marked changed (R110). -/
  changed : Bool
  /-- The beep event (R272). -/
  beep : Bool
  deriving DecidableEq, Repr

/-- Where a state stands in the lifecycle of R305. -/
inductive Lifecycle where
  /-- Created and never reset. -/
  | created
  /-- Reset, and touched by no load and no cycle since: the only state a load is defined on (R304). -/
  | fresh
  /-- A load or a cycle has touched the state since the last reset. -/
  | running
  deriving DecidableEq, Repr

/-- The bytes of `MEM` that differ from what an unlisted address reads as (`Memory.resetByte`), by
rising address; `Memory.wf` is the canonical form. -/
abbrev Memory := List Host.Cell

/-- The framebuffer, one word a row: bit `col` of row `row` is the cell (col, row), `FB[row * 64 + col]`
(R34). -/
abbrev Screen := Vector (BitVec 64) 32

/-- The Machine State (R20), field by field, and below it four fields of the model's own
(INVENTORY.md, '## State'). -/
structure State where
  /-- `V[0..15]`, 16 x 8 bits (R21). -/
  v : Vector Byte 16
  /-- `I`, 16 bits (R24). -/
  index : Word
  /-- `PC`, 16 bits: the address of the instruction being executed (R25). -/
  pc : Word
  /-- `STACK[0..15]`, 16 x 16 bits (R27). -/
  stack : Vector Word 16
  /-- `SP`, an integer 0..16: the number of occupied stack entries (R27). -/
  sp : Fin 17
  /-- `DT`, the delay timer (R29). -/
  dt : Byte
  /-- `ST`, the sound timer (R30). -/
  st : Byte
  /-- `MEM[0..4095]` (R32). -/
  mem : Memory
  /-- `FB[0..2047]` (R34). -/
  fb : Screen
  /-- `KEYS[0..15]`: bit `k` is 1 when key `k` is pressed (R35, R275). -/
  keys : BitVec 16
  /-- `DRAW`, "needs redraw" (R31). -/
  draw : Bool
  /-- The model's own: the parameters of R9, fixed for one machine (notes/assumptions/1.md). -/
  params : Params
  /-- The model's own: the number of the cycle, to which the free value RND is applied
  (notes/assumptions/2.md). -/
  rndIndex : Nat
  /-- The model's own: the place in the lifecycle of R305 (notes/assumptions/3.md). -/
  lifecycle : Lifecycle
  /-- The model's own: the output ports as the last cycle left them (notes/assumptions/4.md). -/
  out : Outputs
  deriving DecidableEq, Repr

/-- How an instruction or a step ends. -/
abbrev Result := Host.Outcome State Fault Refusal

/-- The state `reset()` leaves, on a machine with the given parameters (R39, R300). `MEM` lists
nothing: an unlisted address reads as its reset content, the font or zero. -/
def State.resetWith (p : Params) : State :=
  { v := Vector.replicate 16 0x00#8
    index := 0x0000#16
    pc := 0x0200#16
    stack := Vector.replicate 16 0x0000#16
    sp := 0
    dt := 0x00#8
    st := 0x00#8
    mem := []
    fb := Vector.replicate 32 0#64
    keys := 0#16
    draw := true
    params := p
    rndIndex := 0
    lifecycle := .fresh
    out := { status := .ok, changed := false, beep := false } }

/-- The machine right after reset, with the spec's default parameters (R9, R39). -/
def State.reset : State := State.resetWith Params.default

end Sys2Proof.Machine
end

