-- ==== Sys2Proof/Machine/Operands.lean ====
section
/-! DEFINITION. Operand assembly (30_encoding.md R72) and the addressing modes (43_index_memory.md
R206): how a field of an instruction and the registers become a value, a target or an address. -/

namespace Sys2Proof.Machine

/-- `zext_16(nnn)` (R72). -/
def zext16 (nnn : Addr12) : Word := nnn.setWidth 16

/-- `zext_16` of a byte (R11). -/
def zextByte (b : Byte) : Word := b.setWidth 16

/-- The target of `1nnn`: `zext_16(w AND JUMP_MASK)` (R84). The mask clears the selector nibble, so it
is applied to the address field. -/
def jumpTarget (p : Params) (nnn : Addr12) : Word := zext16 nnn &&& p.jumpMask.bits

/-- Mode "absolute plus V0" (R206), the target of `Bnnn`: not masked to 12 bits (R138). -/
def indexedTarget (nnn : Addr12) (v0 : Byte) : Word := zext16 nnn + zextByte v0

/-- Mode "I-indirect": the address `I + k`, in full integer arithmetic (R56, R206). -/
def indirectAddr (index : Word) (k : Nat) : Nat := index.toNat + k

/-- Mode "font glyph": `V[x] * 5`, with no masking of `V[x]` (R202). -/
def glyphAddr (digit : Byte) : Word := zextByte digit * 5#16

/-- The exact sum `I + V[x]` of `Fx1E`, before any truncation (R201). -/
def indexSum (index : Word) (a : Byte) : Nat := index.toNat + a.toNat

/-- The decimal digits of a byte: hundreds, tens, ones (R203). -/
def decimalDigits (v : Byte) : List Byte :=
  [BitVec.ofNat 8 (v.toNat / 100), BitVec.ofNat 8 (v.toNat / 10 % 10), BitVec.ofNat 8 (v.toNat % 10)]

end Sys2Proof.Machine
end

