-- ==== Sys2Proof/Machine/Flags.lean ====
section
/-! DEFINITION. Every flag computation that an instruction writes to VF (42_alu.md R174), each from the
operand values before the instruction. The collision flag of `Dxyn` is computed while the sprite is
drawn (Machine/Display.lean). -/

namespace Sys2Proof.Machine

/-- VF holds a flag as exactly 0 or 1 (R22). -/
def flagByte (f : Bool) : Byte := if f then 0x01#8 else 0x00#8

/-- Carry of `8xy4`: the exact sum exceeds 255 (R167). -/
def carryFlag (a b : Byte) : Bool := decide (255 < a.toNat + b.toNat)

/-- NOT borrow of `a - b`: `a >= b` (R168; R170 with the operands exchanged). -/
def notBorrowFlag (a b : Byte) : Bool := decide (b.toNat ≤ a.toNat)

/-- The bit `8xy6` shifts out: bit 0 (R169). -/
def shiftOutLow (a : Byte) : Bool := a.getLsbD 0

/-- The bit `8xyE` shifts out: bit 7 (R171). -/
def shiftOutHigh (a : Byte) : Bool := a.getLsbD 7

/-- Index overflow of `Fx1E`: the untruncated sum exceeds 0xFFF (R201). -/
def indexOverflowFlag (index : Word) (a : Byte) : Bool := decide (0xFFF < indexSum index a)

end Sys2Proof.Machine
end

