-- ==== Sys2Proof/Machine/Memory.lean ====
section
/-! DEFINITION. The one address space `MEM` (20_memory.md): 4096 bytes, what an unlisted address reads
as, the canonical form, and the reads and writes of one byte and of a run of bytes. -/

namespace Sys2Proof.Machine

/-- The reset content of an address, which an unlisted address reads as: FONT in 0x000-0x04F, glyph `d`
at `d * 5`, and zero elsewhere (R33, R39, R58). -/
def Memory.resetByte (p : Params) (a : Nat) : Byte :=
  if h : a < fontSize then
    (p.font[a / 5]'(by simp only [fontSize] at h; omega))[a % 5]'(Nat.mod_lt a (by decide))
  else 0x00#8

/-- The canonical form: addresses strictly rising, every address inside `MEM`, and no entry equal to
what its address reads as unlisted. -/
abbrev Memory.wf (p : Params) (m : Memory) : Prop :=
  m.Pairwise (fun c d => c.1 < d.1) ∧ ∀ c ∈ m, c.1 < memSize ∧ c.2 ≠ Memory.resetByte p c.1

/-- The listed byte at an address, if any. -/
def Memory.listed : Memory → Nat → Option Byte
  | [], _ => none
  | (a', b) :: m, a => if a = a' then some b else Memory.listed m a

/-- The byte at an address (`MemRead(a, 1)`, R12). -/
def Memory.read (p : Params) (m : Memory) (a : Nat) : Byte :=
  match m.listed a with
  | some b => b
  | none => Memory.resetByte p a

/-- Enter a byte at its place in the rising order. -/
def Memory.insert : Memory → Nat → Byte → Memory
  | [], a, b => [(a, b)]
  | (a', b') :: m, a, b =>
    if a < a' then (a, b) :: (a', b') :: m
    else if a = a' then (a, b) :: m
    else (a', b') :: Memory.insert m a b

/-- Drop the entry at an address. -/
def Memory.erase : Memory → Nat → Memory
  | [], _ => []
  | (a', b') :: m, a => if a = a' then Memory.erase m a else (a', b') :: Memory.erase m a

/-- Write a byte (`MemWrite(a, 1, v)`, R12): an address above 0xFFF is not written; a byte equal to the
reset content leaves no entry. -/
def Memory.write (p : Params) (m : Memory) (a : Nat) (b : Byte) : Memory :=
  if a < memSize then
    if b = Memory.resetByte p a then m.erase a else m.insert a b
  else m

/-- Write bytes at rising addresses from `a` (R53). -/
def Memory.writeBytes (p : Params) (m : Memory) (a : Nat) : List Byte → Memory
  | [] => m
  | b :: bs => Memory.writeBytes p (m.write p a b) (a + 1) bs

end Sys2Proof.Machine
end

