-- ==== Sys2Proof/Machine/Ops.lean ====
section
/-! DEFINITION. The named operations over registers, PC, stack and memory that the meanings are written
with, and the one operation that raises a fatal condition. The machine has no trap entry and no trap
return (60_exceptions.md R260, R266): a condition is returned to the host. -/

namespace Sys2Proof.Machine

/-! ### General registers -/

/-- `V[r]` (R12). -/
def State.getV (s : State) (r : Reg) : Byte := s.v[r.val]'r.isLt

/-- `V[r] <- b` (R12). -/
def State.setV (s : State) (r : Reg) (b : Byte) : State := { s with v := s.v.set r.val b r.isLt }

/-- `V[x] <- result`, then `VF <- flag`: the flag is written last, so it is the final content of VF
when `x = F` (R160, R22). -/
def State.setResultAndFlag (s : State) (x : Reg) (result : Byte) (flag : Bool) : State :=
  (s.setV x result).setV regF (flagByte flag)

/-- The bytes of `V[0]`..`V[x]` (R204). -/
def State.regBlock (s : State) (x : Reg) : List Byte := s.v.toList.take (x.val + 1)

/-- `for k in 0..x: V[k] <- f k` (R205). -/
def State.setRegBlock (s : State) (x : Reg) (f : Nat → Byte) : State :=
  { s with v := s.v.mapFinIdx fun k b _ => if k ≤ x.val then f k else b }

/-! ### PC -/

/-- `PC <- t` (R12). -/
def State.setPc (s : State) (t : Word) : State := { s with pc := t }

/-- `PC <- trunc_16(PC + 2)`, the default advance (R107). -/
def State.advance (s : State) : State := s.setPc (s.pc + 2#16)

/-- The skip rule: `PC + 4` when the condition holds, else `PC + 2` (R108). -/
def State.skipIf (s : State) (cond : Bool) : State :=
  s.setPc (s.pc + if cond then 4#16 else 2#16)

/-! ### Index register and timers -/

/-- `I <- w`. -/
def State.setIndex (s : State) (w : Word) : State := { s with index := w }

/-- `DT <- b`. -/
def State.setDt (s : State) (b : Byte) : State := { s with dt := b }

/-- `ST <- b`. -/
def State.setSt (s : State) (b : Byte) : State := { s with st := b }

/-! ### Framebuffer -/

/-- The cell `FB[c]` of a framebuffer: row `c / 64`, column `c mod 64` (R34). -/
def Screen.cell (fb : Screen) (c : Nat) : Bool :=
  if h : c / 64 < 32 then (fb[c / 64]'h).getLsbD (c % 64) else false

/-- The framebuffer cell `FB[c]` (R12). -/
def State.cell (s : State) (c : Nat) : Bool := Screen.cell s.fb c

/-- New framebuffer contents, marked changed: DRAW is set (R220, R226). -/
def State.setScreen (s : State) (fb : Screen) : State := { s with fb := fb, draw := true }

/-! ### Stack (R27) -/

/-- The entry `STACK[k]`. -/
def State.stackEntry (s : State) (k : Fin 16) : Word := s.stack[k.val]'k.isLt

/-- `STACK[SP] <- w; SP <- SP + 1`, defined where SP < 16. -/
def State.push (s : State) (w : Word) (h : s.sp.val < 16) : State :=
  { s with stack := s.stack.set s.sp.val w h, sp := ⟨s.sp.val + 1, by omega⟩ }

/-- `SP <- SP - 1`; the popped entry keeps its content (R27). -/
def State.pop (s : State) : State := { s with sp := ⟨s.sp.val - 1, by omega⟩ }

/-- `STACK[SP - 1]`, the most recent return address, defined where SP > 0. -/
def State.topOfStack (s : State) (h : 0 < s.sp.val) : Word :=
  s.stackEntry ⟨s.sp.val - 1, by have := s.sp.isLt; omega⟩

/-! ### Memory -/

/-- `MEM[a]`. -/
def State.readMem (s : State) (a : Nat) : Byte := s.mem.read s.params a

/-- Store bytes at rising addresses from `a` (R53). -/
def State.storeBytes (s : State) (a : Nat) (bs : List Byte) : State :=
  { s with mem := s.mem.writeBytes s.params a bs }

/-- Whether a data access reads or writes `MEM`: FONT_WRITE_POLICY applies to writes only (R59, R205). -/
inductive AccessKind where
  | read
  | write
  deriving DecidableEq, Repr

/-- The lowest address at which an access to `I`, ..., `I + count - 1` may not happen: the first one
above 0xFFF (R56), or `I` itself for a write that begins in the font range under
FONT_WRITE_POLICY = fault (R59). Nothing is checked where no byte is accessed (R225). -/
def State.badAddress (s : State) (kind : AccessKind) (count : Nat) : Option Nat :=
  if count = 0 then none
  else if 0xFFF < indirectAddr s.index (count - 1) then some (max s.index.toNat 0x1000)
  else if kind = .write ∧ s.params.fontWritePolicy = .fault ∧ s.index.toNat < fontSize then
    some s.index.toNat
  else none

/-! ### Conditions -/

/-- `raise Fatal(code, info)`: the cycle ends with the condition and commits no state change
(R12, R262). -/
def raiseFatal (f : Fault) : Result := .fault f

/-- Check the access to `count` bytes from `I` first, then go on: the condition comes before the
instruction changes anything (R56). -/
def withAccess (s : State) (kind : AccessKind) (count : Nat) (next : State) : Result :=
  match s.badAddress kind count with
  | some a => raiseFatal (.invalidMemoryAccess a)
  | none => .next next

/-- Check a key index first, then go on with the key's state: an index above 15 is fatal (R240). -/
def withKey (s : State) (k : Byte) (next : Bool → State) : Result :=
  if 15 < k.toNat then raiseFatal (.invalidKeyIndex k)
  else .next (next (s.keys.getLsbD k.toNat))

end Sys2Proof.Machine
end

