-- ==== Sys2Proof/Machine/Alu.lean ====
section
/-! DEFINITION. The instruction ALU (42_alu.md): 8-bit unsigned operations, results modulo 256, every
operand read before anything is written, the flag written last (R160). -/

namespace Sys2Proof.Machine

/-- `6xnn` LD Vx, nn (R161). -/
def execLdImm (x : Reg) (nn : Byte) (s : State) : Result := .next (s.setV x nn).advance

/-- `7xnn` ADD Vx, nn: no flag (R162). -/
def execAddImm (x : Reg) (nn : Byte) (s : State) : Result := .next (s.setV x (s.getV x + nn)).advance

/-- `8xy0` LD Vx, Vy (R163). -/
def execLdReg (x y : Reg) (s : State) : Result := .next (s.setV x (s.getV y)).advance

/-- `8xy1` OR Vx, Vy: VF is not reset (R164). -/
def execOr (x y : Reg) (s : State) : Result := .next (s.setV x (s.getV x ||| s.getV y)).advance

/-- `8xy2` AND Vx, Vy: VF is not reset (R165). -/
def execAnd (x y : Reg) (s : State) : Result := .next (s.setV x (s.getV x &&& s.getV y)).advance

/-- `8xy3` XOR Vx, Vy: VF is not reset (R166). -/
def execXor (x y : Reg) (s : State) : Result := .next (s.setV x (s.getV x ^^^ s.getV y)).advance

/-- `8xy4` ADD Vx, Vy with carry (R167). -/
def execAddReg (x y : Reg) (s : State) : Result :=
  .next (s.setResultAndFlag x (s.getV x + s.getV y) (carryFlag (s.getV x) (s.getV y))).advance

/-- `8xy5` SUB Vx, Vy with not-borrow (R168). -/
def execSub (x y : Reg) (s : State) : Result :=
  .next (s.setResultAndFlag x (s.getV x - s.getV y) (notBorrowFlag (s.getV x) (s.getV y))).advance

/-- `8xy6` SHR Vx, Vy: `V[x]` in place, `V[y]` is not read (R169). -/
def execShr (x _y : Reg) (s : State) : Result :=
  .next (s.setResultAndFlag x (s.getV x >>> 1) (shiftOutLow (s.getV x))).advance

/-- `8xy7` SUBN Vx, Vy: the reverse subtraction `V[y] - V[x]` (R170). -/
def execSubn (x y : Reg) (s : State) : Result :=
  .next (s.setResultAndFlag x (s.getV y - s.getV x) (notBorrowFlag (s.getV y) (s.getV x))).advance

/-- `8xyE` SHL Vx, Vy: `V[x]` in place, `V[y]` is not read (R171). -/
def execShl (x _y : Reg) (s : State) : Result :=
  .next (s.setResultAndFlag x (s.getV x <<< 1) (shiftOutHigh (s.getV x))).advance

/-- The random byte of the cycle: the free value RND at the number of the cycle (R113, R172). -/
def State.randomByte (s : State) : Byte := Config.randomByte s.rndIndex

/-- `Cxnn` RND Vx, nn (R172). -/
def execRnd (x : Reg) (nn : Byte) (s : State) : Result := .next (s.setV x (s.randomByte &&& nn)).advance

end Sys2Proof.Machine
end

