-- ==== Sys2Proof/Machine/ControlFlow.lean ====
section
/-! DEFINITION. Control transfer and the stack controller (41_control_flow.md). -/

namespace Sys2Proof.Machine

/-- `00EE` RET (R131). -/
def execRet (s : State) : Result :=
  if h : 0 < s.sp.val then .next (s.pop.setPc (s.topOfStack h + 2#16))
  else raiseFatal (.stackUnderflow s.pc)

/-- `1nnn` JP nnn (R132). -/
def execJp (nnn : Addr12) (s : State) : Result := .next (s.setPc (jumpTarget s.params nnn))

/-- `2nnn` CALL nnn (R133): it pushes its own address. -/
def execCall (nnn : Addr12) (s : State) : Result :=
  if h : s.sp.val < 16 then .next ((s.push s.pc h).setPc (zext16 nnn))
  else raiseFatal (.stackOverflow s.pc)

/-- `3xnn` SE Vx, nn (R134). -/
def execSeImm (x : Reg) (nn : Byte) (s : State) : Result := .next (s.skipIf (s.getV x == nn))

/-- `4xnn` SNE Vx, nn (R135). -/
def execSneImm (x : Reg) (nn : Byte) (s : State) : Result := .next (s.skipIf (s.getV x != nn))

/-- `5xy0` SE Vx, Vy (R136). -/
def execSeReg (x y : Reg) (s : State) : Result := .next (s.skipIf (s.getV x == s.getV y))

/-- `9xy0` SNE Vx, Vy (R137). -/
def execSneReg (x y : Reg) (s : State) : Result := .next (s.skipIf (s.getV x != s.getV y))

/-- `Bnnn` JP V0, nnn (R138). -/
def execJpV0 (nnn : Addr12) (s : State) : Result :=
  .next (s.setPc (indexedTarget nnn (s.getV reg0)))

end Sys2Proof.Machine
end

