-- ==== Sys2Proof/Machine/Display.lean ====
section
/-! DEFINITION. The framebuffer and the pixel collision detector (44_display.md). -/

namespace Sys2Proof.Machine

/-- The index of cell (col, row): `row * 64 + col` (R34). -/
def cellIndex (col row : Nat) : Nat := row * fbWidth + col

/-- The cell of sprite row `r` and bit column `c` for a sprite at (cx, cy): both coordinates wrap
(R223). -/
def pixelCell (cx cy : Byte) (r c : Nat) : Nat :=
  cellIndex ((cx.toNat + c) % fbWidth) ((cy.toNat + r) % fbHeight)

/-- Bit column `c` of a sprite byte is bit `7 - c`: the most significant bit is leftmost (R223). -/
def spriteBit (b : Byte) (c : Nat) : Bool := b.getLsbD (7 - c)

/-- A framebuffer being drawn on, and whether a set cell was erased so far (R224). -/
structure Drawing where
  fb : Screen
  hit : Bool
  deriving DecidableEq, Repr

/-- XOR 1 into the cell `FB[c]` (R222). -/
def Screen.flip (fb : Screen) (c : Nat) : Screen :=
  if h : c / 64 < 32 then fb.set (c / 64) (fb[c / 64]'h ^^^ BitVec.twoPow 64 (c % 64)) h else fb

/-- A framebuffer with every cell off. -/
def Screen.blank : Screen := Vector.replicate 32 0#64

/-- XOR a set sprite bit into a cell and notice an erasure (R222, R224). -/
def Drawing.flip (d : Drawing) (cell : Nat) : Drawing :=
  { fb := Screen.flip d.fb cell, hit := d.hit || Screen.cell d.fb cell }

/-- The cells under the set bits of one sprite row, left to right (R222). -/
def rowCells (cx cy : Byte) (r : Nat) (b : Byte) : List Nat :=
  ((List.range 8).filter fun c => spriteBit b c).map fun c => pixelCell cx cy r c

/-- The cells under the set bits of a sprite, row by row (R222). -/
def spriteCells (cx cy : Byte) (rows : List Byte) : List Nat :=
  (rows.zipIdx.map fun br => rowCells cx cy br.2 br.1).flatten

/-- Draw a sprite: XOR every cell under a set bit (R222). -/
def drawSprite (fb : Screen) (cx cy : Byte) (rows : List Byte) : Drawing :=
  (spriteCells cx cy rows).foldl Drawing.flip { fb := fb, hit := false }

/-- The sprite's `n` bytes, from `I` (R222). -/
def State.spriteRows (s : State) (n : Nat) : List Byte :=
  (List.range n).map fun r => s.readMem (indirectAddr s.index r)

/-- `00E0` CLS (R221). -/
def execCls (s : State) : Result := .next (s.setScreen Screen.blank).advance

/-- `Dxyn` DRW Vx, Vy, n: coordinates are read before VF is written; with `n = 0` no byte is read, VF is
0 and DRAW is set (R222, R225). -/
def execDrw (x y : Reg) (n : Height) (s : State) : Result :=
  withAccess s .read n.val
    (((s.setScreen (drawSprite s.fb (s.getV x) (s.getV y) (s.spriteRows n.val)).fb).setV regF
      (flagByte (drawSprite s.fb (s.getV x) (s.getV y) (s.spriteRows n.val)).hit)).advance)

end Sys2Proof.Machine
end

