-- ==== Sys2Proof/Machine/IndexMemory.lean ====
section
/-! DEFINITION. Index register and memory instructions (43_index_memory.md). -/

namespace Sys2Proof.Machine

/-- `Annn` LD I, nnn (R200). -/
def execLdI (nnn : Addr12) (s : State) : Result := .next (s.setIndex (zext16 nnn)).advance

/-- `Fx1E` ADD I, Vx: I is truncated to 16 bits and not masked to 12, VF is the index overflow of the
exact sum (R201). -/
def execAddIVx (x : Reg) (s : State) : Result :=
  .next ((s.setIndex (BitVec.ofNat 16 (indexSum s.index (s.getV x)))).setV regF
    (flagByte (indexOverflowFlag s.index (s.getV x)))).advance

/-- `Fx29` LD F, Vx (R202). -/
def execLdFVx (x : Reg) (s : State) : Result := .next (s.setIndex (glyphAddr (s.getV x))).advance

/-- `Fx33` LD B, Vx: the three decimal digits from `I`; I is not changed (R203). -/
def execLdBVx (x : Reg) (s : State) : Result :=
  withAccess s .write 3 (s.storeBytes s.index.toNat (decimalDigits (s.getV x))).advance

/-- `Fx55` LD [I], Vx: `V[0]`..`V[x]` from `I`, then `I <- trunc_16(I + x + 1)` (R204). -/
def execLdMemVx (x : Reg) (s : State) : Result :=
  withAccess s .write (x.val + 1)
    ((s.storeBytes s.index.toNat (s.regBlock x)).setIndex
      (BitVec.ofNat 16 (indirectAddr s.index (x.val + 1)))).advance

/-- `Fx65` LD Vx, [I]: `V[0]`..`V[x]` from `I`, then `I <- trunc_16(I + x + 1)` (R205). -/
def execLdVxMem (x : Reg) (s : State) : Result :=
  withAccess s .read (x.val + 1)
    ((s.setRegBlock x fun k => s.readMem (indirectAddr s.index k)).setIndex
      (BitVec.ofNat 16 (indirectAddr s.index (x.val + 1)))).advance

end Sys2Proof.Machine
end

