-- ==== Sys2Proof/Machine/KeysTimers.lean ====
section
/-! DEFINITION. Key and timer instructions (45_keys_timers.md) and the timer countdown unit
(60_exceptions.md R269 to R273). -/

namespace Sys2Proof.Machine

/-- The lowest pressed key, if any: "lowest index wins" (R243). -/
def lowestKey (keys : BitVec 16) : Option Nat := (List.range 16).find? fun k => keys.getLsbD k

/-- `Ex9E` SKP Vx (R240). -/
def execSkp (x : Reg) (s : State) : Result := withKey s (s.getV x) fun pressed => s.skipIf pressed

/-- `ExA1` SKNP Vx (R241). -/
def execSknp (x : Reg) (s : State) : Result := withKey s (s.getV x) fun pressed => s.skipIf (!pressed)

/-- `Fx07` LD Vx, DT: DT as the previous cycle left it (R242). -/
def execLdVxDt (x : Reg) (s : State) : Result := .next (s.setV x s.dt).advance

/-- `Fx0A` LD Vx, K: with no key pressed the machine stays, PC and all; else the lowest pressed key goes
to `V[x]` (R243). -/
def execLdVxK (x : Reg) (s : State) : Result :=
  match lowestKey s.keys with
  | none => .next s
  | some k => .next (s.setV x (BitVec.ofNat 8 k)).advance

/-- `Fx15` LD DT, Vx (R244). -/
def execLdDtVx (x : Reg) (s : State) : Result := .next (s.setDt (s.getV x)).advance

/-- `Fx18` LD ST, Vx (R245). -/
def execLdStVx (x : Reg) (s : State) : Result := .next (s.setSt (s.getV x)).advance

/-- One countdown: a counter above 0 loses 1, a counter at 0 stays (R270, R271, R272). -/
def countDown (t : Byte) : Byte := if t = 0x00#8 then t else t - 1#8

/-- The timer step: both counters count down once (R271, R272). -/
def State.tickTimers (s : State) : State := (s.setDt (countDown s.dt)).setSt (countDown s.st)

/-- The beep event of the timer step: ST equals 1 before it counts down (R272). -/
def State.beeps (s : State) : Bool := s.st == 0x01#8

end Sys2Proof.Machine
end

