-- ==== Sys2Proof/Machine/Fetch.lean ====
section
/-! DEFINITION. Fetch (40_cycle_engine.md R102): two bytes at PC and PC + 1, big-endian. -/

namespace Sys2Proof.Machine

/-- Both bytes at PC and PC + 1 are inside `MEM`: PC <= 0xFFE (R102). -/
def State.canFetch (s : State) : Bool := decide (s.pc.toNat ≤ 0xFFE)

/-- The word at PC: `MEM[PC]` is bits 15:8, `MEM[PC + 1]` bits 7:0; PC may be odd (R52, R54). -/
def State.wordAtPc (s : State) : Word :=
  wordOfBytes (s.readMem s.pc.toNat) (s.readMem (s.pc.toNat + 1))

/-- Step 1 of the cycle: the word, or `InvalidFetch` (R102). -/
def fetchWord (s : State) : Except Fault Word :=
  if s.canFetch then .ok s.wordAtPc else .error (.invalidFetch s.pc)

end Sys2Proof.Machine
end

