-- ==== Sys2Proof/Machine/Cycle.lean ====
section
/-! DEFINITION. The whole cycle (40_cycle_engine.md R101, R112): fetch, decode, execute, timers, report. -/

namespace Sys2Proof.Machine

/-- An unknown word changes nothing but PC; the report names it (R106). -/
def execUnknown (s : State) : State := s.advance

/-- Step 5: `changed` is DRAW after steps 3 and 4, and DRAW is then cleared (R110). The outputs go to
the output ports; the cycle is counted, so that the next one has a random byte of its own (R113). -/
def State.report (s : State) (status : Status) (beep : Bool) : State :=
  { s with
    draw := false
    out := { status := status, changed := s.draw, beep := beep }
    rndIndex := s.rndIndex + 1
    lifecycle := .running }

/-- Steps 4 and 5 of a cycle that completes, on the state execute left (R109, R110). -/
def State.endCycle (s : State) (status : Status) : State := s.tickTimers.report status s.beeps

/-- Steps 3 to 5 for a fetched word (R112). A fatal condition ends the cycle at once and commits nothing
(R111). -/
def cycleOnWord (w : Word) (s : State) : Result :=
  match decodeWord w with
  | none => .next ((execUnknown s).endCycle (.unknownOpcode w s.pc))
  | some i =>
    match exec i s with
    | .next t => .next (t.endCycle .ok)
    | .fault f => raiseFatal f
    | .refused r => .refused r

/-- One cycle (R112). A state that was never reset has no defined content, and no cycle runs on it
(R305). -/
def cycle (s : State) : Result :=
  if s.lifecycle = .created then .refused .cycleBeforeReset
  else
    match fetchWord s with
    | .error f => raiseFatal f
    | .ok w => cycleOnWord w s

end Sys2Proof.Machine
end

