-- ==== Sys2Proof/Machine/Step.lean ====
section
/-! DEFINITION. The step of the machine, one cycle (40_cycle_engine.md R100), and the placing of one
instruction where the next cycle fetches it. -/

namespace Sys2Proof.Machine

/-- One step is one cycle (R100, R112). -/
def step (s : State) : Host.Outcome State Fault Refusal := cycle s

/-- The state with an instruction stored where `step` fetches next: its two bytes, big-endian, at PC
(R52). A PC no fetch succeeds at is first set to 0x200, and a state that was never reset becomes one
that was: this stands for the host's load of a program (notes/assumptions/5.md). -/
def State.withFetchWord (s : State) (nbits w : Nat) : State :=
  let pc := if s.canFetch then s.pc else 0x0200#16
  { s with
    pc := pc
    mem := s.mem.writeBytes s.params pc.toNat (bytesOfWord (tableWord nbits w))
    lifecycle := if s.lifecycle = .created then .running else s.lifecycle }

end Sys2Proof.Machine
end

