-- ==== Sys2Proof/Machine/HostCommands.lean ====
section
/-! DEFINITION. The host's commands and inputs (60_exceptions.md R275 to R277): `reset`, `load`, `cycle`,
the key input, and what the host reads back. Each is one atomic operation on the Machine State (R274). -/

namespace Sys2Proof.Machine

/-- The numeric code of a condition (R261). -/
def Fault.code : Fault → Nat
  | .stackOverflow _ => 2
  | .stackUnderflow _ => 3
  | .invalidFetch _ => 4
  | .invalidMemoryAccess _ => 5
  | .invalidKeyIndex _ => 6

/-- The numeric code of a cycle's status (R261). -/
def Status.code : Status → Nat
  | .ok => 0
  | .unknownOpcode _ _ => 1
  | .fatal f => f.code

/-- The `load_status` output (R276). -/
inductive LoadStatus where
  | ok
  /-- The image is longer than ROM_MAX; its length (R303). -/
  | romTooLarge (len : Nat)
  deriving DecidableEq, Repr

/-- The numeric code of a load's status (R261). -/
def LoadStatus.code : LoadStatus → Nat
  | .ok => 0
  | .romTooLarge _ => 7

/-- The `reset` command, on any state (R300, R301). The parameters are those of the machine; the cycle
number of RND runs on, so that no draw is tied to a draw before the reset (notes/assumptions/2.md). -/
def hostReset (s : State) : State := { State.resetWith s.params with rndIndex := s.rndIndex }

/-- The `load(bytes)` command (R302, R303): defined on a freshly reset state only (R304). -/
def hostLoad (bytes : List Byte) (s : State) : Except Refusal (State × LoadStatus) :=
  if s.lifecycle = .fresh then
    if romFits bytes then
      .ok ({ s.storeBytes progBase bytes with lifecycle := .running }, .ok)
    else .ok (s, .romTooLarge bytes.length)
  else .error .loadNotFresh

/-- The `cycle` command as the host sees it (R111, R112): a fatal cycle gives back the state it began in,
with the status in the output ports and `changed` and `beep` 0. -/
def hostCycle (s : State) : Except Refusal State :=
  match cycle s with
  | .next t => .ok t
  | .fault f => .ok { s with out := { status := .fatal f, changed := false, beep := false } }
  | .refused r => .error r

/-- The key input, written between cycles (R275, R277). -/
def hostKeys (keys : BitVec 16) (s : State) : State := { s with keys := keys }

/-- The `fb` output: the 2048 cells, row-major (R276). -/
def hostFb (s : State) : List Bool := (List.range fbCells).map s.cell

/-- The framebuffer cell (col, row) as the display adapter reads it (R34, R276). -/
def hostPixel (s : State) (col row : Nat) : Bool := s.cell (row * fbWidth + col)

end Sys2Proof.Machine
end

