-- ==== Sys2Proof/Safety.lean ====
section
/-! DEFINITION. The terms claims are stated in: the parts of the state and what an instruction leaves
unchanged, the invariant, runs, the self-loop, and the cells a sprite covers. -/

namespace Sys2Proof.Machine

/-- One part of the state, as a reader of the spec names it (10_state.md R20), with the model's own
fields last. Memory is named byte by byte, the framebuffer cell by cell. -/
inductive Part where
  | v (r : Reg)
  | index
  | pc
  | stack (k : Fin 16)
  | sp
  | dt
  | st
  | mem (a : Nat)
  | fb (c : Nat)
  | keys
  | draw
  | params
  | rndIndex
  | lifecycle
  | out
  deriving DecidableEq, Repr

/-- The two states hold the same in this part; memory and framebuffer through the model's read of one
byte and of one cell. -/
def Part.sameIn (s t : State) : Part → Prop
  | .v r => t.getV r = s.getV r
  | .index => t.index = s.index
  | .pc => t.pc = s.pc
  | .stack k => t.stackEntry k = s.stackEntry k
  | .sp => t.sp = s.sp
  | .dt => t.dt = s.dt
  | .st => t.st = s.st
  | .mem a => t.readMem a = s.readMem a
  | .fb c => t.cell c = s.cell c
  | .keys => t.keys = s.keys
  | .draw => t.draw = s.draw
  | .params => t.params = s.params
  | .rndIndex => t.rndIndex = s.rndIndex
  | .lifecycle => t.lifecycle = s.lifecycle
  | .out => t.out = s.out

/-- Every part of the state outside `parts` is unchanged: the frame of an instruction. -/
def OnlyChanges (s t : State) (parts : List Part) : Prop := ∀ p, p ∉ parts → p.sameIn s t

/-- The bytes at `a`, ..., `a + n - 1` of memory. -/
def Part.memBlock (a n : Nat) : List Part := (List.range n).map fun k => Part.mem (a + k)

/-- The registers `V[0]`, ..., `V[x]`. -/
def Part.regBlock (x : Reg) : List Part :=
  ((List.finRange 16).filter fun r => decide (r.val ≤ x.val)).map Part.v

/-- All cells of the framebuffer. -/
def Part.screen : List Part := (List.range fbCells).map Part.fb

/-- What a completed cycle's own steps write besides the instruction's effect: the timer step DT and ST
(R109), the report step DRAW, the output ports, and the model's count and lifecycle (R110). -/
def Part.cycleParts : List Part := [.dt, .st, .draw, .out, .rndIndex, .lifecycle]

/-- Every word that matches the row decodes to the instruction built from its fields (R74). -/
def EncodedAs (mask pattern : Word) (i : Word → Instr) : Prop :=
  ∀ w, w &&& mask = pattern → decodeWord w = some (i w)

/-- The next cycle fetches and decodes this instruction: the state was reset, PC is inside memory, and
the word at PC decodes to it (R102, R103). -/
def State.fetches (s : State) (i : Instr) : Prop :=
  s.lifecycle ≠ .created ∧ s.canFetch = true ∧ decodeWord s.wordAtPc = some i

/-- The cell lies under a set bit of the sprite `Dxyn` draws in this state: cell
`row * 64 + col` with `col = (V[x] + c) mod 64` and `row = (V[y] + r) mod 32`, where bit `7 - c` of the
byte at `I + r` is set (R223). -/
def SpriteCovers (s : State) (x y : Reg) (n : Height) (cell : Nat) : Prop :=
  ∃ r < n.val, ∃ c < 8, (s.readMem (s.index.toNat + r)).getLsbD (7 - c) = true ∧
    cell = (((s.getV y).toNat + r) % 32) * 64 + ((s.getV x).toNat + c) % 64

/-- The invariant of a machine that runs: memory in canonical form, PC at most 0x10FE, every stack entry
at most 0xFFE (R26, R37). -/
abbrev State.Inv (s : State) : Prop :=
  Memory.wf s.params s.mem ∧ s.pc.toNat ≤ 0x10FE ∧ ∀ k : Fin 16, (s.stackEntry k).toNat ≤ 0xFFE

/-- The states `σ 0`, ..., `σ n` are a run: each of the first `n` completes its cycle and gives the next
one. Before each cycle the host may write KEYS, any value (R275, R277). -/
def IsRun (σ : Nat → State) (n : Nat) : Prop :=
  ∀ k < n, ∃ keys, step (hostKeys keys (σ k)) = .next (σ (k + 1))

/-- The end of a run (b): a `1nnn` whose target is its own address, fetched at PC (R313). -/
def State.AtSelfLoop (s : State) : Prop :=
  ∃ nnn, s.fetches (.jp nnn) ∧ jumpTarget s.params nnn = s.pc

/-- The end of a run (a): the next cycle returns a fatal status (R313). -/
def State.AtFatal (s : State) : Prop := ∃ f, step s = .fault f

/-- The next state, where there is one. -/
def nextOf : Result → Option State
  | .next s => some s
  | .fault _ => none
  | .refused _ => none

/-- The fatal condition, where there is one. -/
def faultOf : Result → Option Fault
  | .next _ => none
  | .fault f => some f
  | .refused _ => none

/-- Change the next state of a result; a fault or a refusal stays as it is. -/
def mapNext (f : State → State) : Result → Result
  | .next s => .next (f s)
  | .fault e => .fault e
  | .refused r => .refused r

end Sys2Proof.Machine
end

