-- ==== Sys2Proof/Certificates/Slice0/Obligations.lean ====
section
/-! DEFINITION. The statements for the provers, one per entry of OBLIGATIONS.json. A statement about an
instruction says its encoding (every word that matches its row decodes to it), that it completes, what it
writes, and by `OnlyChanges` its frame: every part of the state not listed is unchanged, memory byte by
byte and the framebuffer cell by cell. -/

open Sys2Proof Sys2Proof.Machine

/-! ### Encoding (30_encoding.md) -/

/-- Words written out from the table of R75 decode to the instructions they stand for, and five words the
spec's own vectors call unknown do not decode. That 0x5121 and 0x01E0 are unknown is the spec's decision
D10 (notes/assumptions/7.md). -/
def Obligations.SpecWordsDecode : Prop :=
  decodeWord 0x00E0#16 = some .cls ∧ decodeWord 0x00EE#16 = some .ret ∧
  decodeWord 0x220C#16 = some (.call 0x20C#12) ∧ decodeWord 0x5010#16 = some (.seReg 0 1) ∧
  decodeWord 0x6A42#16 = some (.ldImm 10 0x42#8) ∧ decodeWord 0x8F14#16 = some (.addReg 15 1) ∧
  decodeWord 0x847E#16 = some (.shl 4 7) ∧ decodeWord 0xA2F0#16 = some (.ldI 0x2F0#12) ∧
  decodeWord 0xD01F#16 = some (.drw 0 1 15) ∧ decodeWord 0xE19E#16 = some (.skp 1) ∧
  decodeWord 0xF30A#16 = some (.ldVxK 3) ∧ decodeWord 0xF533#16 = some (.ldBVx 5) ∧
  decodeWord 0x0000#16 = none ∧ decodeWord 0x5121#16 = none ∧ decodeWord 0x8128#16 = none ∧
  decodeWord 0xE1A2#16 = none ∧ decodeWord 0x01E0#16 = none

/-- R74: every word matches exactly one row of R75, the row of the instruction it decodes to, or matches
no row and does not decode. The exact match of every digit is the spec's decision D10
(notes/assumptions/7.md). R74 is marked by the spec as its own inference. -/
def Obligations.WordMatchesExactlyItsRow : Prop :=
  ∀ w : Word,
    (∃ i, decodeWord w = some i ∧ i.row ∈ opcodeTable ∧ w &&& i.row.mask = i.row.pattern ∧
      ∀ r ∈ opcodeTable, w &&& r.mask = r.pattern → r = i.row) ∨
    (decodeWord w = none ∧ ∀ r ∈ opcodeTable, w &&& r.mask ≠ r.pattern)

/-- R78: the unknown words, family by family. The exact match of every digit is the spec's decision D10
(notes/assumptions/7.md). R76 is marked by the spec as its own inference. -/
def Obligations.UnknownWordsAreTheListedOnes : Prop :=
  ∀ w : Word, decodeWord w = none ↔
    (w.toNat / 4096 = 0x0 ∧ w ≠ 0x00E0#16 ∧ w ≠ 0x00EE#16) ∨
    (w.toNat / 4096 = 0x5 ∧ w.toNat % 16 ≠ 0) ∨
    (w.toNat / 4096 = 0x8 ∧ w.toNat % 16 ∈ [0x8, 0x9, 0xA, 0xB, 0xC, 0xD, 0xF]) ∨
    (w.toNat / 4096 = 0x9 ∧ w.toNat % 16 ≠ 0) ∨
    (w.toNat / 4096 = 0xE ∧ w.toNat % 256 ∉ [0x9E, 0xA1]) ∨
    (w.toNat / 4096 = 0xF ∧
      w.toNat % 256 ∉ [0x07, 0x0A, 0x15, 0x18, 0x1E, 0x29, 0x33, 0x55, 0x65])

/-- Decoding the bytes of any well-formed instruction gives it back, with the bytes after it. -/
def Obligations.DecodeOfEncode : Prop :=
  ∀ (i : Instr) (rest : List Byte), i.wf = true → decode (encode i ++ rest) = .ok (i, rest)

/-- Encoding what a word decodes to gives the word back: no bit of a word is dropped. -/
def Obligations.EncodeOfDecode : Prop :=
  ∀ (w : Word) (i : Instr), decodeWord w = some i → encodeWord i = w

/-! ### The cycle (40_cycle_engine.md, 60_exceptions.md) -/

/-- A step runs the instruction the two bytes at PC decode to, big-endian, and then, if it gives a next
state, the timer step and the report step; a fatal condition ends the step. The equation on
the whole next state holds choices: `changed` is DRAW and DRAW is then cleared (the spec's decision D9), and
the timers also run in a waiting `Fx0A` (its D16; both notes/assumptions/7.md). The rest are the model's own
fields: `out` latches the outputs (notes/assumptions/4.md), `rndIndex` counts the cycle
(notes/assumptions/2.md), and `lifecycle` becomes running and is the premise that the state was reset
(notes/assumptions/3.md). -/
def Obligations.StepRunsTheDecodedInstruction : Prop :=
  ∀ (s : State) (i : Instr), s.lifecycle ≠ .created → s.pc.toNat ≤ 0xFFE →
    decode [s.readMem s.pc.toNat, s.readMem (s.pc.toNat + 1)] = .ok (i, []) →
    (∀ u, exec i s = .next u → step s = .next
      { u with
        dt := countDown u.dt
        st := countDown u.st
        draw := false
        out := { status := .ok, changed := u.draw, beep := u.st == 1#8 }
        rndIndex := u.rndIndex + 1
        lifecycle := .running }) ∧
    (∀ f, exec i s = .fault f → step s = .fault f)

/-- R270, R271 and the step of R272: each counter loses 1 in every completed cycle when it is above 0 and
stays at 0; it is counted down from the value execute left, also when the word is unknown; the beep is ST
= 1 before the count. That the timers also run after an unknown word and in a waiting `Fx0A` are the
spec's decisions D11 and D16 (notes/assumptions/7.md). -/
def Obligations.TimersCountDownOncePerCycle : Prop :=
  (∀ (s u : State) (i : Instr), s.fetches i → exec i s = .next u →
    ∃ t, step s = .next t ∧ (0 < u.dt.toNat → t.dt.toNat = u.dt.toNat - 1) ∧
      (u.dt.toNat = 0 → t.dt.toNat = 0) ∧ (0 < u.st.toNat → t.st.toNat = u.st.toNat - 1) ∧
      (u.st.toNat = 0 → t.st.toNat = 0) ∧ (t.out.beep = true ↔ u.st = 1#8)) ∧
  (∀ s : State, s.lifecycle ≠ .created → s.pc.toNat ≤ 0xFFE → decodeWord s.wordAtPc = none →
    ∃ t, step s = .next t ∧ (0 < s.dt.toNat → t.dt.toNat = s.dt.toNat - 1) ∧
      (s.dt.toNat = 0 → t.dt.toNat = 0) ∧ (0 < s.st.toNat → t.st.toNat = s.st.toNat - 1) ∧
      (s.st.toNat = 0 → t.st.toNat = 0) ∧ (t.out.beep = true ↔ s.st = 1#8))

/-- R106, R263: a cycle on an unknown word completes. PC advances by 2, the timers tick, the report step
runs, the status names the word and its PC, and nothing else changes. That such a cycle runs the timers
and the report is the spec's decision D11, the status code its D18 (notes/assumptions/7.md). -/
def Obligations.UnknownWordCycleCompletes : Prop :=
  ∀ s : State, s.lifecycle ≠ .created → s.pc.toNat ≤ 0xFFE → decodeWord s.wordAtPc = none →
    ∃ t, step s = .next t ∧ t.pc = s.pc + 2#16 ∧
      t.out.status = .unknownOpcode s.wordAtPc s.pc ∧ t.out.status.code = 1 ∧
      t.dt.toNat = s.dt.toNat - 1 ∧ t.st.toNat = s.st.toNat - 1 ∧
      t.out.changed = s.draw ∧ t.draw = false ∧ (t.out.beep = true ↔ s.st = 1#8) ∧
      OnlyChanges s t (.pc :: Part.cycleParts)

/-- R102: the fetch reads the word at PC and PC + 1, big-endian, at odd and even PC alike, and a cycle
whose PC exceeds 0xFFE is the fatal `InvalidFetch(PC)`. That an odd PC is fetched like an even one is the
spec's decision D12 (R54, R26; notes/assumptions/7.md); the premise that the state was reset is read from
the model's `lifecycle` (notes/assumptions/3.md). -/
def Obligations.FetchOrInvalidFetch : Prop :=
  (∀ s : State, s.pc.toNat + 1 ≤ 0xFFF →
    ∃ w, fetchWord s = .ok w ∧ w.toNat =
      (s.readMem s.pc.toNat).toNat * 256 + (s.readMem (s.pc.toNat + 1)).toNat) ∧
  (∀ s : State, 0xFFF < s.pc.toNat + 1 → fetchWord s = .error (.invalidFetch s.pc)) ∧
  (∀ s : State, s.lifecycle ≠ .created →
    (step s = .fault (.invalidFetch s.pc) ↔ 0xFFF < s.pc.toNat + 1))

/-- A cycle on a state that was created and never reset is refused (R305, the refusal is the model's
`cycleBeforeReset`, notes/assumptions/3.md). The spec's decision D23 (notes/assumptions/7.md). -/
def Obligations.CycleBeforeResetIsRefused : Prop :=
  ∀ s : State, s.lifecycle = .created → step s = .refused .cycleBeforeReset

/-- The taxonomy of R261 for execute: an instruction ends in a fatal condition exactly under the
condition's clause, with its info, and otherwise completes; no instruction is refused. Codes 5 and 6 and
what is recorded are the spec's decisions D3, D4, D15 and D18 (notes/assumptions/7.md). R264 is marked by
the spec as its own inference. -/
def Obligations.ExecStopsExactlyAsListed : Prop :=
  ∀ (i : Instr) (s : State),
    ((∃ t, exec i s = .next t) ∨ ∃ f, exec i s = .fault f) ∧
    ∀ f, exec i s = .fault f ↔
      (∃ nnn, i = .call nnn ∧ s.sp.val = 16 ∧ f = .stackOverflow s.pc) ∨
      (i = .ret ∧ s.sp.val = 0 ∧ f = .stackUnderflow s.pc) ∨
      (∃ x, (i = .skp x ∨ i = .sknp x) ∧ 15 < (s.getV x).toNat ∧ f = .invalidKeyIndex (s.getV x)) ∨
      (∃ x y n, i = .drw x y n ∧ 0 < n.val ∧ 0xFFF < s.index.toNat + n.val - 1 ∧
        f = .invalidMemoryAccess (max s.index.toNat 0x1000)) ∨
      (∃ x, i = .ldVxMem x ∧ 0xFFF < s.index.toNat + x.val ∧
        f = .invalidMemoryAccess (max s.index.toNat 0x1000)) ∨
      (∃ x n, (i = .ldBVx x ∧ n = 2 ∨ i = .ldMemVx x ∧ n = x.val) ∧
        ((0xFFF < s.index.toNat + n ∧ f = .invalidMemoryAccess (max s.index.toNat 0x1000)) ∨
          (s.index.toNat + n ≤ 0xFFF ∧ s.params.fontWritePolicy = .fault ∧ s.index.toNat < 0x050 ∧
            f = .invalidMemoryAccess s.index.toNat)))

/-- R111, R262: a fatal cycle gives the host back the state it began in, with the condition as status, a
code from 2 to 6, and `changed` and `beep` 0; another cycle, whatever KEYS the host wrote in between,
ends in the same condition with the same info. The spec's decisions D2 and D18 (notes/assumptions/7.md);
the outputs latched in `out` are the model's form (notes/assumptions/4.md). That a further cycle repeats
the condition is marked by the spec as its own inference (R262). -/
def Obligations.FatalCycleCommitsNothing : Prop :=
  ∀ (s : State) (f : Fault), step s = .fault f →
    ∃ t, hostCycle s = .ok t ∧ OnlyChanges s t [.out] ∧ t.mem = s.mem ∧ t.fb = s.fb ∧
      t.out = { status := .fatal f, changed := false, beep := false } ∧
      2 ≤ t.out.status.code ∧ t.out.status.code ≤ 6 ∧
      ∀ keys, step (hostKeys keys t) = .fault f

/-! ### Control transfer and the stack (41_control_flow.md) -/

/-- R131. That the popped entry keeps its content is the spec's decision D29 (notes/assumptions/7.md). -/
def Obligations.RetPopsAndReturns : Prop :=
  EncodedAs 0xFFFF#16 0x00EE#16 (fun _ => .ret) ∧
  (∀ (s : State) (k : Fin 16), s.sp.val = k.val + 1 →
    ∃ t, exec .ret s = .next t ∧ t.sp.val = k.val ∧ t.pc = s.stackEntry k + 2#16 ∧
      OnlyChanges s t [.sp, .pc]) ∧
  (∀ s : State, s.sp.val = 0 → exec .ret s = .fault (.stackUnderflow s.pc))

/-- R132, with the two values of JUMP_MASK: the target is `nnn`, or `nnn AND 0xF00`. -/
def Obligations.JpSetsPc : Prop :=
  EncodedAs 0xF000#16 0x1000#16 (fun w => .jp (nnnField w)) ∧
  ∀ (s : State) (nnn : Addr12), ∃ t, exec (.jp nnn) s = .next t ∧
    (s.params.jumpMask = .m0FFF → t.pc.toNat = nnn.toNat) ∧
    (s.params.jumpMask = .m0F00 → t.pc.toNat = nnn.toNat / 256 * 256) ∧
    OnlyChanges s t [.pc]

/-- R133: the address of the CALL itself is pushed. -/
def Obligations.CallPushesItsOwnAddress : Prop :=
  EncodedAs 0xF000#16 0x2000#16 (fun w => .call (nnnField w)) ∧
  (∀ (s : State) (nnn : Addr12) (k : Fin 16), s.sp.val = k.val →
    ∃ t, exec (.call nnn) s = .next t ∧ t.stackEntry k = s.pc ∧ t.sp.val = k.val + 1 ∧
      t.pc.toNat = nnn.toNat ∧ OnlyChanges s t [.stack k, .sp, .pc]) ∧
  (∀ (s : State) (nnn : Addr12), s.sp.val = 16 → exec (.call nnn) s = .fault (.stackOverflow s.pc))

/-- R134, R135. -/
def Obligations.SkipOnImmediate : Prop :=
  EncodedAs 0xF000#16 0x3000#16 (fun w => .seImm (xField w) (nnField w)) ∧
  EncodedAs 0xF000#16 0x4000#16 (fun w => .sneImm (xField w) (nnField w)) ∧
  ∀ (s : State) (x : Reg) (nn : Byte),
    (∃ t, exec (.seImm x nn) s = .next t ∧ OnlyChanges s t [.pc] ∧
      (s.getV x = nn → t.pc = s.pc + 4#16) ∧ (s.getV x ≠ nn → t.pc = s.pc + 2#16)) ∧
    (∃ t, exec (.sneImm x nn) s = .next t ∧ OnlyChanges s t [.pc] ∧
      (s.getV x ≠ nn → t.pc = s.pc + 4#16) ∧ (s.getV x = nn → t.pc = s.pc + 2#16))

/-- R136, R137. -/
def Obligations.SkipOnRegisters : Prop :=
  EncodedAs 0xF00F#16 0x5000#16 (fun w => .seReg (xField w) (yField w)) ∧
  EncodedAs 0xF00F#16 0x9000#16 (fun w => .sneReg (xField w) (yField w)) ∧
  ∀ (s : State) (x y : Reg),
    (∃ t, exec (.seReg x y) s = .next t ∧ OnlyChanges s t [.pc] ∧
      (s.getV x = s.getV y → t.pc = s.pc + 4#16) ∧ (s.getV x ≠ s.getV y → t.pc = s.pc + 2#16)) ∧
    (∃ t, exec (.sneReg x y) s = .next t ∧ OnlyChanges s t [.pc] ∧
      (s.getV x ≠ s.getV y → t.pc = s.pc + 4#16) ∧ (s.getV x = s.getV y → t.pc = s.pc + 2#16))

/-- R138: the sum is not masked to 12 bits and never truncated; JUMP_MASK does not apply. -/
def Obligations.JpV0AddsV0 : Prop :=
  EncodedAs 0xF000#16 0xB000#16 (fun w => .jpV0 (nnnField w)) ∧
  ∀ (s : State) (nnn : Addr12), ∃ t, exec (.jpV0 nnn) s = .next t ∧
    t.pc.toNat = nnn.toNat + (s.getV 0).toNat ∧ OnlyChanges s t [.pc]

/-- R140: along a run that begins with a `2nnn` and whose cycle `n` is the `00EE` that brings SP back,
with SP above its first value in between, that `00EE` sets PC to the word after the call. R140 is marked
by the spec as its own inference. -/
def Obligations.CallReturnRoundTrip : Prop :=
  ∀ (σ : Nat → State) (n : Nat), IsRun σ (n + 1) → (∃ nnn, (σ 0).fetches (.call nnn)) →
    (σ n).fetches .ret → (σ n).sp.val = (σ 0).sp.val + 1 →
    (∀ j, 1 ≤ j → j ≤ n → (σ 0).sp.val < (σ j).sp.val) →
    (σ (n + 1)).pc = (σ 0).pc + 2#16 ∧ (σ (n + 1)).sp = (σ 0).sp

/-- Only `2nnn` and `00EE` write the stack or SP (R27). -/
def Obligations.OnlyCallAndRetTouchTheStack : Prop :=
  ∀ s t : State, step s = .next t → (∀ nnn, ¬ s.fetches (.call nnn)) → ¬ s.fetches .ret →
    t.sp = s.sp ∧ ∀ k, t.stackEntry k = s.stackEntry k

/-! ### Instruction ALU (42_alu.md) -/

/-- R161, R162: no flag is written. -/
def Obligations.ImmediateLoadAndAdd : Prop :=
  EncodedAs 0xF000#16 0x6000#16 (fun w => .ldImm (xField w) (nnField w)) ∧
  EncodedAs 0xF000#16 0x7000#16 (fun w => .addImm (xField w) (nnField w)) ∧
  ∀ (s : State) (x : Reg) (nn : Byte),
    (∃ t, exec (.ldImm x nn) s = .next t ∧ t.getV x = nn ∧ t.pc = s.pc + 2#16 ∧
      OnlyChanges s t [.v x, .pc]) ∧
    (∃ t, exec (.addImm x nn) s = .next t ∧
      (t.getV x).toNat = ((s.getV x).toNat + nn.toNat) % 256 ∧ t.pc = s.pc + 2#16 ∧
      OnlyChanges s t [.v x, .pc])

/-- R163 to R166: copy, OR, AND, XOR bit by bit; VF is not reset. That `V[x]` is the destination is not
in the spec's source (R163), and that VF is not reset is its decision D6 (notes/assumptions/7.md). -/
def Obligations.CopyAndBitwise : Prop :=
  EncodedAs 0xF00F#16 0x8000#16 (fun w => .ldReg (xField w) (yField w)) ∧
  EncodedAs 0xF00F#16 0x8001#16 (fun w => .or (xField w) (yField w)) ∧
  EncodedAs 0xF00F#16 0x8002#16 (fun w => .and (xField w) (yField w)) ∧
  EncodedAs 0xF00F#16 0x8003#16 (fun w => .xor (xField w) (yField w)) ∧
  ∀ (s : State) (x y : Reg),
    (∃ t, exec (.ldReg x y) s = .next t ∧ t.getV x = s.getV y ∧ t.pc = s.pc + 2#16 ∧
      OnlyChanges s t [.v x, .pc]) ∧
    (∃ t, exec (.or x y) s = .next t ∧ t.pc = s.pc + 2#16 ∧ OnlyChanges s t [.v x, .pc] ∧
      ∀ b < 8, (t.getV x).getLsbD b = ((s.getV x).getLsbD b || (s.getV y).getLsbD b)) ∧
    (∃ t, exec (.and x y) s = .next t ∧ t.pc = s.pc + 2#16 ∧ OnlyChanges s t [.v x, .pc] ∧
      ∀ b < 8, (t.getV x).getLsbD b = ((s.getV x).getLsbD b && (s.getV y).getLsbD b)) ∧
    (∃ t, exec (.xor x y) s = .next t ∧ t.pc = s.pc + 2#16 ∧ OnlyChanges s t [.v x, .pc] ∧
      ∀ b < 8, (t.getV x).getLsbD b = ((s.getV x).getLsbD b != (s.getV y).getLsbD b))

/-- R167: the sum modulo 256 in `V[x]`, then the carry in VF; in VF the flag wins. That the flag is
written last is the spec's decision D5 (notes/assumptions/7.md). -/
def Obligations.AddSetsCarry : Prop :=
  EncodedAs 0xF00F#16 0x8004#16 (fun w => .addReg (xField w) (yField w)) ∧
  ∀ (s : State) (x y : Reg), ∃ t, exec (.addReg x y) s = .next t ∧
    (x ≠ regF → (t.getV x).toNat = ((s.getV x).toNat + (s.getV y).toNat) % 256) ∧
    t.getV regF = (if 255 < (s.getV x).toNat + (s.getV y).toNat then 1#8 else 0#8) ∧
    t.pc = s.pc + 2#16 ∧ OnlyChanges s t [.v x, .v regF, .pc]

/-- R168, R170: the difference modulo 256 in `V[x]`, then NOT borrow in VF; in VF the flag wins. That the
flag is written last is the spec's decision D5, and the result of `8xy7` is not in its source (R170;
notes/assumptions/7.md). -/
def Obligations.SubtractSetsNotBorrow : Prop :=
  EncodedAs 0xF00F#16 0x8005#16 (fun w => .sub (xField w) (yField w)) ∧
  EncodedAs 0xF00F#16 0x8007#16 (fun w => .subn (xField w) (yField w)) ∧
  ∀ (s : State) (x y : Reg),
    (∃ t, exec (.sub x y) s = .next t ∧
      (x ≠ regF → ((t.getV x).toNat : Int) = ((s.getV x).toNat - (s.getV y).toNat : Int) % 256) ∧
      t.getV regF = (if (s.getV x).toNat ≥ (s.getV y).toNat then 1#8 else 0#8) ∧
      t.pc = s.pc + 2#16 ∧ OnlyChanges s t [.v x, .v regF, .pc]) ∧
    (∃ t, exec (.subn x y) s = .next t ∧
      (x ≠ regF → ((t.getV x).toNat : Int) = ((s.getV y).toNat - (s.getV x).toNat : Int) % 256) ∧
      t.getV regF = (if (s.getV y).toNat ≥ (s.getV x).toNat then 1#8 else 0#8) ∧
      t.pc = s.pc + 2#16 ∧ OnlyChanges s t [.v x, .v regF, .pc])

/-- R169, R171: `V[x]` shifted in place by one with zero fill, then the bit shifted out in VF; `V[y]` is
not read, so the result is the same for every `y`. The shift by one with zero fill is not in the spec's
source (R169, R171); that `V[y]` is not read and that the flag is written last are its decisions D7 and
D5 (notes/assumptions/7.md). -/
def Obligations.ShiftsSetTheBitShiftedOut : Prop :=
  EncodedAs 0xF00F#16 0x8006#16 (fun w => .shr (xField w) (yField w)) ∧
  EncodedAs 0xF00F#16 0x800E#16 (fun w => .shl (xField w) (yField w)) ∧
  ∀ (s : State) (x y : Reg),
    (∃ t, exec (.shr x y) s = .next t ∧
      (x ≠ regF → (t.getV x).toNat = (s.getV x).toNat / 2) ∧
      (t.getV regF).toNat = (s.getV x).toNat % 2 ∧
      t.pc = s.pc + 2#16 ∧ OnlyChanges s t [.v x, .v regF, .pc]) ∧
    (∃ t, exec (.shl x y) s = .next t ∧
      (x ≠ regF → (t.getV x).toNat = (s.getV x).toNat * 2 % 256) ∧
      (t.getV regF).toNat = (s.getV x).toNat / 128 ∧
      t.pc = s.pc + 2#16 ∧ OnlyChanges s t [.v x, .v regF, .pc])

/-- R172: the cycle's random byte AND `nn`, whatever that byte is (it is the free value RND at the number
of the cycle, notes/assumptions/2.md). -/
def Obligations.RndMasksTheRandomByte : Prop :=
  EncodedAs 0xF000#16 0xC000#16 (fun w => .rnd (xField w) (nnField w)) ∧
  ∀ (s : State) (x : Reg) (nn : Byte), ∃ t, exec (.rnd x nn) s = .next t ∧
    t.getV x = Config.randomByte s.rndIndex &&& nn ∧ t.pc = s.pc + 2#16 ∧
    OnlyChanges s t [.v x, .pc]

/-- R22: the seven flag instructions leave exactly 0 or 1 in VF on every execution that completes, and
any other instruction leaves VF alone unless it names register F as its destination. With `x = F` this
rests on the spec's decision D5 (notes/assumptions/7.md). -/
def Obligations.VfIsAFlagOnlyOfTheSeven : Prop :=
  (∀ (i : Instr) (s t : State), exec i s = .next t →
    ((∃ x y, i = .addReg x y ∨ i = .sub x y ∨ i = .shr x y ∨ i = .subn x y ∨ i = .shl x y) ∨
      (∃ x y n, i = .drw x y n) ∨ (∃ x, i = .addIVx x)) →
    t.getV regF = 0#8 ∨ t.getV regF = 1#8) ∧
  (∀ (i : Instr) (s t : State), exec i s = .next t → t.getV regF ≠ s.getV regF →
    ((∃ x y, i = .addReg x y ∨ i = .sub x y ∨ i = .shr x y ∨ i = .subn x y ∨ i = .shl x y) ∨
      (∃ x y n, i = .drw x y n) ∨ (∃ x, i = .addIVx x)) ∨
    (∃ nn, i = .ldImm regF nn ∨ i = .addImm regF nn ∨ i = .rnd regF nn) ∨
    (∃ y, i = .ldReg regF y ∨ i = .or regF y ∨ i = .and regF y ∨ i = .xor regF y) ∨
    i = .ldVxDt regF ∨ i = .ldVxK regF ∨ i = .ldVxMem regF)

/-- R23: the general registers an instruction may write; every other register keeps its value. R23 is
marked by the spec as its own inference. -/
def Obligations.RegistersWrittenAsTabled : Prop :=
  ∀ (i : Instr) (s t : State) (r : Reg), exec i s = .next t → t.getV r ≠ s.getV r →
    (∃ nn, i = .ldImm r nn ∨ i = .addImm r nn ∨ i = .rnd r nn) ∨
    (∃ y, i = .ldReg r y ∨ i = .or r y ∨ i = .and r y ∨ i = .xor r y) ∨
    (i = .ldVxDt r) ∨ (i = .ldVxK r ∧ s.keys ≠ 0#16) ∨
    (∃ x y, (r = x ∨ r = regF) ∧
      (i = .addReg x y ∨ i = .sub x y ∨ i = .shr x y ∨ i = .subn x y ∨ i = .shl x y)) ∨
    (r = regF ∧ ((∃ x y n, i = .drw x y n) ∨ ∃ x, i = .addIVx x)) ∨
    (∃ x, i = .ldVxMem x ∧ r.val ≤ x.val)

/-! ### Index register and memory (43_index_memory.md, 20_memory.md) -/

/-- R200, R202. That `Fx29` does not mask `V[x]` is the spec's decision D14 (notes/assumptions/7.md). -/
def Obligations.IndexIsSet : Prop :=
  EncodedAs 0xF000#16 0xA000#16 (fun w => .ldI (nnnField w)) ∧
  EncodedAs 0xF0FF#16 0xF029#16 (fun w => .ldFVx (xField w)) ∧
  (∀ (s : State) (nnn : Addr12), ∃ t, exec (.ldI nnn) s = .next t ∧ t.index.toNat = nnn.toNat ∧
    t.pc = s.pc + 2#16 ∧ OnlyChanges s t [.index, .pc]) ∧
  (∀ (s : State) (x : Reg), ∃ t, exec (.ldFVx x) s = .next t ∧
    t.index.toNat = (s.getV x).toNat * 5 ∧ t.pc = s.pc + 2#16 ∧ OnlyChanges s t [.index, .pc])

/-- R201: I is not masked to 12 bits; VF is 1 exactly when the untruncated sum exceeds 0xFFF. The 16-bit
truncation of I is the spec's decision D13 (notes/assumptions/7.md). -/
def Obligations.AddToIndexSetsOverflow : Prop :=
  EncodedAs 0xF0FF#16 0xF01E#16 (fun w => .addIVx (xField w)) ∧
  ∀ (s : State) (x : Reg), ∃ t, exec (.addIVx x) s = .next t ∧
    t.index.toNat = (s.index.toNat + (s.getV x).toNat) % 65536 ∧
    t.getV regF = (if 0xFFF < s.index.toNat + (s.getV x).toNat then 1#8 else 0#8) ∧
    t.pc = s.pc + 2#16 ∧ OnlyChanges s t [.index, .v regF, .pc]

/-- R203: hundreds, tens and ones at `I`, `I + 1`, `I + 2`; the two checks come first. The two fatal
clauses are the spec's decisions D3 and D15 (notes/assumptions/7.md). -/
def Obligations.DecimalDigitsAreStored : Prop :=
  EncodedAs 0xF0FF#16 0xF033#16 (fun w => .ldBVx (xField w)) ∧
  (∀ (s : State) (x : Reg), s.index.toNat + 2 ≤ 0xFFF →
    (s.params.fontWritePolicy = .write ∨ 0x050 ≤ s.index.toNat) →
    ∃ t, exec (.ldBVx x) s = .next t ∧
      (t.readMem s.index.toNat).toNat = (s.getV x).toNat / 100 ∧
      (t.readMem (s.index.toNat + 1)).toNat = (s.getV x).toNat / 10 % 10 ∧
      (t.readMem (s.index.toNat + 2)).toNat = (s.getV x).toNat % 10 ∧
      t.pc = s.pc + 2#16 ∧ OnlyChanges s t (.pc :: Part.memBlock s.index.toNat 3)) ∧
  (∀ (s : State) (x : Reg), 0xFFF < s.index.toNat + 2 →
    exec (.ldBVx x) s = .fault (.invalidMemoryAccess (max s.index.toNat 0x1000))) ∧
  (∀ (s : State) (x : Reg), s.params.fontWritePolicy = .fault → s.index.toNat < 0x050 →
    exec (.ldBVx x) s = .fault (.invalidMemoryAccess s.index.toNat))

/-- R204: `V[k]` at `I + k` for k = 0..x, then I advances by x + 1; the two checks come first. The two
fatal clauses are the spec's decisions D3 and D15 (notes/assumptions/7.md). -/
def Obligations.RegistersAreStored : Prop :=
  EncodedAs 0xF0FF#16 0xF055#16 (fun w => .ldMemVx (xField w)) ∧
  (∀ (s : State) (x : Reg), s.index.toNat + x.val ≤ 0xFFF →
    (s.params.fontWritePolicy = .write ∨ 0x050 ≤ s.index.toNat) →
    ∃ t, exec (.ldMemVx x) s = .next t ∧
      (∀ k : Reg, k.val ≤ x.val → t.readMem (s.index.toNat + k.val) = s.getV k) ∧
      t.index.toNat = s.index.toNat + x.val + 1 ∧ t.pc = s.pc + 2#16 ∧
      OnlyChanges s t (.index :: .pc :: Part.memBlock s.index.toNat (x.val + 1))) ∧
  (∀ (s : State) (x : Reg), 0xFFF < s.index.toNat + x.val →
    exec (.ldMemVx x) s = .fault (.invalidMemoryAccess (max s.index.toNat 0x1000))) ∧
  (∀ (s : State) (x : Reg), s.params.fontWritePolicy = .fault → s.index.toNat < 0x050 →
    exec (.ldMemVx x) s = .fault (.invalidMemoryAccess s.index.toNat))

/-- R205: `V[k]` from `I + k` for k = 0..x, then I advances by x + 1; FONT_WRITE_POLICY does not apply.
The fatal clause is the spec's decision D3 (notes/assumptions/7.md). -/
def Obligations.RegistersAreLoaded : Prop :=
  EncodedAs 0xF0FF#16 0xF065#16 (fun w => .ldVxMem (xField w)) ∧
  (∀ (s : State) (x : Reg), s.index.toNat + x.val ≤ 0xFFF →
    ∃ t, exec (.ldVxMem x) s = .next t ∧
      (∀ k : Reg, k.val ≤ x.val → t.getV k = s.readMem (s.index.toNat + k.val)) ∧
      t.index.toNat = s.index.toNat + x.val + 1 ∧ t.pc = s.pc + 2#16 ∧
      OnlyChanges s t (.index :: .pc :: Part.regBlock x)) ∧
  (∀ (s : State) (x : Reg), 0xFFF < s.index.toNat + x.val →
    exec (.ldVxMem x) s = .fault (.invalidMemoryAccess (max s.index.toNat 0x1000)))

/-- What `Fx55` stored, an `Fx65` from the same address loads back, on any later state that still holds
those bytes. -/
def Obligations.StoredRegistersLoadBack : Prop :=
  ∀ (s t w u : State) (x : Reg), exec (.ldMemVx x) s = .next t → w.index = s.index →
    (∀ a, s.index.toNat ≤ a → a ≤ s.index.toNat + x.val → w.readMem a = t.readMem a) →
    exec (.ldVxMem x) w = .next u → ∀ k : Reg, k.val ≤ x.val → u.getV k = s.getV k

/-- Fetch is coherent with stores: a word whose two bytes `Fx55`, or two of whose three digits `Fx33`, has
just stored is the word a fetch at that address reads, even where it is the next instruction (R64). R64 is
marked by the spec as its own inference. -/
def Obligations.FetchSeesStoredBytes : Prop :=
  (∀ (s t w : State) (x j k : Reg), s.fetches (.ldMemVx x) → step s = .next t →
    w.pc.toNat = s.index.toNat + j.val → k.val = j.val + 1 → k.val ≤ x.val →
    (∀ a, w.readMem a = t.readMem a) →
    fetchWord w = .ok (wordOfBytes (s.getV j) (s.getV k))) ∧
  (∀ (s t w : State) (x : Reg), s.fetches (.ldBVx x) → step s = .next t →
    (∀ a, w.readMem a = t.readMem a) →
    (w.pc.toNat = s.index.toNat → ∃ word, fetchWord w = .ok word ∧
      word.toNat = (s.getV x).toNat / 100 * 256 + (s.getV x).toNat / 10 % 10) ∧
    (w.pc.toNat = s.index.toNat + 1 → ∃ word, fetchWord w = .ok word ∧
      word.toNat = (s.getV x).toNat / 10 % 10 * 256 + (s.getV x).toNat % 10))

/-- Only `Fx33` and `Fx55` write memory (R51): after any other completed cycle every byte reads as
before. R51 is marked by the spec as its own inference (notes/assumptions/7.md). -/
def Obligations.OnlyStoresWriteMemory : Prop :=
  ∀ s t : State, step s = .next t → (∀ x, ¬ s.fetches (.ldBVx x)) → (∀ x, ¬ s.fetches (.ldMemVx x)) →
    ∀ a, t.readMem a = s.readMem a

/-- Under FONT_WRITE_POLICY = fault no program changes a font byte (R59), over any run. The policy is the
spec's decision D15 (notes/assumptions/7.md). -/
def Obligations.FontIsNeverOverwrittenUnderFault : Prop :=
  ∀ (σ : Nat → State) (n : Nat), IsRun σ n → (σ 0).params.fontWritePolicy = .fault →
    ∀ k ≤ n, ∀ a < 0x050, (σ k).readMem a = (σ 0).readMem a

/-! ### Framebuffer (44_display.md) -/

/-- R221. -/
def Obligations.ClsClearsTheScreen : Prop :=
  EncodedAs 0xFFFF#16 0x00E0#16 (fun _ => .cls) ∧
  ∀ s : State, ∃ t, exec .cls s = .next t ∧ (∀ c < 2048, t.cell c = false) ∧ t.draw = true ∧
    t.pc = s.pc + 2#16 ∧ OnlyChanges s t (.draw :: .pc :: Part.screen)

/-- R222, R223, R224: exactly the cells under set sprite bits flip, VF is 1 exactly when a set cell was
erased and 0 otherwise, DRAW is set; a row address above 0xFFF is fatal before any cell changes. The row
modulus 32 is the choice of 90_conflicts.md C1, the bit order and the corner are the spec's decision D8,
the fatal clause its D3 (notes/assumptions/7.md). -/
def Obligations.DrawFlipsTheCoveredCells : Prop :=
  EncodedAs 0xF000#16 0xD000#16 (fun w => .drw (xField w) (yField w) (heightField w)) ∧
  (∀ (s : State) (x y : Reg) (n : Height), (n.val = 0 ∨ s.index.toNat + n.val - 1 ≤ 0xFFF) →
    ∃ t, exec (.drw x y n) s = .next t ∧
      (∀ c < 2048, t.cell c ≠ s.cell c ↔ SpriteCovers s x y n c) ∧
      ((∃ c < 2048, s.cell c = true ∧ t.cell c = false) → t.getV regF = 1#8) ∧
      ((¬ ∃ c < 2048, s.cell c = true ∧ t.cell c = false) → t.getV regF = 0#8) ∧
      t.draw = true ∧ t.pc = s.pc + 2#16 ∧
      OnlyChanges s t (.v regF :: .draw :: .pc :: Part.screen)) ∧
  (∀ (s : State) (x y : Reg) (n : Height), 0 < n.val → 0xFFF < s.index.toNat + n.val - 1 →
    exec (.drw x y n) s = .fault (.invalidMemoryAccess (max s.index.toNat 0x1000)))

/-- R225: with `n = 0`, wherever I points, no cell changes, VF is 0 and DRAW is 1. R225 is marked by the
spec as its own inference. -/
def Obligations.DrawOfNoRows : Prop :=
  ∀ (s : State) (x y : Reg), ∃ t, exec (.drw x y 0) s = .next t ∧ t.getV regF = 0#8 ∧
    t.draw = true ∧ t.pc = s.pc + 2#16 ∧ OnlyChanges s t [.v regF, .draw, .pc]

/-- Drawing the same sprite twice restores the screen; the second draw reports an erasure exactly when
the sprite covers a cell that was off at first. Which cells it covers rests on the row modulus 32, the
choice of 90_conflicts.md C1, and on bit 7 being leftmost, the spec's decision D8 (PRESUMED;
notes/assumptions/7.md). With `x = F` or `y = F` the second draw reads another coordinate: those forms are
in `DrawFlipsTheCoveredCells`. -/
def Obligations.DrawingTwiceRestoresTheScreen : Prop :=
  ∀ (s t u : State) (x y : Reg) (n : Height), x ≠ regF → y ≠ regF →
    exec (.drw x y n) s = .next t → exec (.drw x y n) t = .next u →
    (∀ c < 2048, u.cell c = s.cell c) ∧
    (u.getV regF = 1#8 ↔ ∃ c < 2048, SpriteCovers s x y n c ∧ s.cell c = false)

/-- Only `00E0` and `Dxyn` change the framebuffer (R34, R220). -/
def Obligations.OnlyClsAndDrwChangeTheScreen : Prop :=
  ∀ s t : State, step s = .next t → ¬ s.fetches .cls → (∀ x y n, ¬ s.fetches (.drw x y n)) →
    ∀ c, t.cell c = s.cell c

/-- R110, R226: a completed cycle reports `changed` exactly when DRAW was set before it or it ran `00E0`
or `Dxyn`, and leaves DRAW clear. When DRAW is cleared is the spec's decision D9
(notes/assumptions/7.md). -/
def Obligations.ChangedIsReportedAndCleared : Prop :=
  ∀ s t : State, step s = .next t → t.draw = false ∧
    (t.out.changed = true ↔
      s.draw = true ∨ s.fetches .cls ∨ ∃ x y n, s.fetches (.drw x y n))

/-! ### Keys and timers (45_keys_timers.md, 60_exceptions.md) -/

/-- R240, R241. The fatal clause is the spec's decision D4 (notes/assumptions/7.md). -/
def Obligations.SkipOnKey : Prop :=
  EncodedAs 0xF0FF#16 0xE09E#16 (fun w => .skp (xField w)) ∧
  EncodedAs 0xF0FF#16 0xE0A1#16 (fun w => .sknp (xField w)) ∧
  (∀ (s : State) (x : Reg), (s.getV x).toNat ≤ 15 →
    (∃ t, exec (.skp x) s = .next t ∧ OnlyChanges s t [.pc] ∧
      (s.keys.getLsbD (s.getV x).toNat = true → t.pc = s.pc + 4#16) ∧
      (s.keys.getLsbD (s.getV x).toNat = false → t.pc = s.pc + 2#16)) ∧
    (∃ t, exec (.sknp x) s = .next t ∧ OnlyChanges s t [.pc] ∧
      (s.keys.getLsbD (s.getV x).toNat = false → t.pc = s.pc + 4#16) ∧
      (s.keys.getLsbD (s.getV x).toNat = true → t.pc = s.pc + 2#16))) ∧
  (∀ (s : State) (x : Reg), 15 < (s.getV x).toNat →
    exec (.skp x) s = .fault (.invalidKeyIndex (s.getV x)) ∧
    exec (.sknp x) s = .fault (.invalidKeyIndex (s.getV x)))

/-- R242: DT as the previous cycle left it; the same cycle counts it down afterwards. -/
def Obligations.DelayTimerIsRead : Prop :=
  EncodedAs 0xF0FF#16 0xF007#16 (fun w => .ldVxDt (xField w)) ∧
  (∀ (s : State) (x : Reg), ∃ t, exec (.ldVxDt x) s = .next t ∧ t.getV x = s.dt ∧
    t.pc = s.pc + 2#16 ∧ OnlyChanges s t [.v x, .pc]) ∧
  (∀ (s : State) (x : Reg), s.fetches (.ldVxDt x) → ∃ t, step s = .next t ∧ t.getV x = s.dt ∧
    t.dt.toNat = s.dt.toNat - 1)

/-- R243: with no key pressed the instruction stays, and its cycle still runs the timer and report steps
with status Ok; else the least pressed key goes to `V[x]`. That the test is on the level of KEYS and that
the timers run while waiting are the spec's decision D16 (notes/assumptions/7.md). -/
def Obligations.KeyWait : Prop :=
  EncodedAs 0xF0FF#16 0xF00A#16 (fun w => .ldVxK (xField w)) ∧
  (∀ (s : State) (x : Reg), (∀ k < 16, s.keys.getLsbD k = false) → exec (.ldVxK x) s = .next s) ∧
  (∀ (s : State) (x : Reg) (k : Nat), k < 16 → s.keys.getLsbD k = true →
    (∀ j < k, s.keys.getLsbD j = false) →
    ∃ t, exec (.ldVxK x) s = .next t ∧ (t.getV x).toNat = k ∧ t.pc = s.pc + 2#16 ∧
      OnlyChanges s t [.v x, .pc]) ∧
  (∀ (s : State) (x : Reg), s.fetches (.ldVxK x) → (∀ k < 16, s.keys.getLsbD k = false) →
    ∃ t, step s = .next t ∧ t.dt.toNat = s.dt.toNat - 1 ∧ t.st.toNat = s.st.toNat - 1 ∧
      (t.out.beep = true ↔ s.st = 1#8) ∧ t.out.status = .ok ∧ t.out.changed = s.draw ∧
      OnlyChanges s t Part.cycleParts)

/-- R244, R245: the timer takes `V[x]`, and the same cycle counts the value just written down (R308, marked by the
spec as its own inference); ST = 1 beeps at once (R245, R272). The premise that the state was reset is read
from the model's `lifecycle` (notes/assumptions/3.md). -/
def Obligations.TimersAreSet : Prop :=
  EncodedAs 0xF0FF#16 0xF015#16 (fun w => .ldDtVx (xField w)) ∧
  EncodedAs 0xF0FF#16 0xF018#16 (fun w => .ldStVx (xField w)) ∧
  (∀ (s : State) (x : Reg),
    (∃ t, exec (.ldDtVx x) s = .next t ∧ t.dt = s.getV x ∧ t.pc = s.pc + 2#16 ∧
      OnlyChanges s t [.dt, .pc]) ∧
    (∃ t, exec (.ldStVx x) s = .next t ∧ t.st = s.getV x ∧ t.pc = s.pc + 2#16 ∧
      OnlyChanges s t [.st, .pc])) ∧
  (∀ (s : State) (x : Reg), s.fetches (.ldDtVx x) →
    ∃ t, step s = .next t ∧ t.dt.toNat = (s.getV x).toNat - 1) ∧
  (∀ (s : State) (x : Reg), s.fetches (.ldStVx x) →
    ∃ t, step s = .next t ∧ t.st.toNat = (s.getV x).toNat - 1 ∧
      (t.out.beep = true ↔ s.getV x = 1#8))

/-- R272: along a run in which no cycle writes ST, ST counts down once per cycle and stays at 0, and the
beep comes exactly in the cycle that takes ST from 1 to 0: at most once, and never when ST starts at 0.
Cycles on unknown words and waiting cycles count, by the spec's decisions D11 and D16
(notes/assumptions/7.md). -/
def Obligations.SoundTimerBeepsExactlyOnce : Prop :=
  ∀ (σ : Nat → State) (n : Nat), IsRun σ n → (∀ k < n, ∀ x, ¬ (σ k).fetches (.ldStVx x)) →
    (∀ k ≤ n, (σ k).st.toNat = (σ 0).st.toNat - k) ∧
    (∀ k < n, (σ (k + 1)).out.beep = true ↔ k + 1 = (σ 0).st.toNat)

/-- Along a run in which no cycle writes DT, DT counts cycles: one decrement per completed cycle, down to
0 and no further (R269, R273). Cycles on unknown words and waiting cycles count, by the spec's decisions
D11 and D16 (notes/assumptions/7.md). -/
def Obligations.DelayTimerCountsCycles : Prop :=
  ∀ (σ : Nat → State) (n : Nat), IsRun σ n → (∀ k < n, ∀ x, ¬ (σ k).fetches (.ldDtVx x)) →
    ∀ k ≤ n, (σ k).dt.toNat = (σ 0).dt.toNat - k

/-- KEYS is read-only from the engine's perspective (R35), and no cycle changes the parameters
(notes/assumptions/1.md). -/
def Obligations.EngineNeverWritesKeysOrParameters : Prop :=
  ∀ s t : State, step s = .next t → t.keys = s.keys ∧ t.params = s.params

/-- No instruction but `Ex9E`, `ExA1` and `Fx0A` depends on KEYS (R35). -/
def Obligations.OnlyKeyInstructionsReadKeys : Prop :=
  ∀ (i : Instr) (s : State) (keys : BitVec 16),
    (∀ x, i ≠ .skp x ∧ i ≠ .sknp x ∧ i ≠ .ldVxK x) →
    exec i { s with keys := keys } = mapNext (fun t => { t with keys := keys }) (exec i s)

/-- No instruction but `Cxnn` depends on the cycle's random byte (R113). The cycle's byte is the model's
free value at `rndIndex` (notes/assumptions/2.md). -/
def Obligations.OnlyRndReadsTheRandomByte : Prop :=
  ∀ (i : Instr) (s : State) (m : Nat), (∀ x nn, i ≠ .rnd x nn) →
    exec i { s with rndIndex := m } = mapNext (fun t => { t with rndIndex := m }) (exec i s)

/-! ### Reset, load, the invariant, the end of a run (70_reset_and_hazards.md, 10_state.md) -/

/-- R39, R300: the value of every piece of state after `reset()`, from any state, for every FONT. That
KEYS is cleared is the spec's decision D17 (notes/assumptions/7.md). -/
def Obligations.ResetValues : Prop :=
  ∀ s : State,
    (∀ r, (hostReset s).getV r = 0#8) ∧ (hostReset s).index = 0#16 ∧ (hostReset s).pc = 0x0200#16 ∧
    (∀ k, (hostReset s).stackEntry k = 0#16) ∧ (hostReset s).sp = 0 ∧
    (hostReset s).dt = 0#8 ∧ (hostReset s).st = 0#8 ∧
    (∀ (d : Fin 16) (r : Fin 5), (hostReset s).readMem (d.val * 5 + r.val) = s.params.font[d][r]) ∧
    (∀ a, 0x050 ≤ a → a ≤ 0xFFF → (hostReset s).readMem a = 0#8) ∧
    (∀ c < 2048, (hostReset s).cell c = false) ∧ (hostReset s).draw = true ∧
    (∀ k < 16, (hostReset s).keys.getLsbD k = false)

/-- The copy of R302, and R303: a load of at most 3584 bytes copies them to 0x200 and on and leaves every
other byte; a longer one is rejected with its length and no byte written. The premise of a freshly reset
state is the spec's decision D23 (notes/assumptions/7.md) read from the model's `lifecycle`, and that a
rejected load leaves the state fresh is the model's deduction (both notes/assumptions/3.md). -/
def Obligations.LoadCopiesOrRejects : Prop :=
  (∀ (s : State) (bytes : List Byte), s.lifecycle = .fresh → bytes.length ≤ 3584 →
    ∃ t, hostLoad bytes s = .ok (t, .ok) ∧
      (∀ j (h : j < bytes.length), t.readMem (0x200 + j) = bytes[j]) ∧
      OnlyChanges s t (.lifecycle :: Part.memBlock 0x200 bytes.length)) ∧
  (∀ (s : State) (bytes : List Byte), s.lifecycle = .fresh → 3584 < bytes.length →
    hostLoad bytes s = .ok (s, .romTooLarge bytes.length))

/-- R304: a load on a state that was never reset, or that a completed cycle or an accepted load has touched
since the last reset, is refused, and after a reset it is not. The spec's decision D23 (notes/assumptions/7.md), told apart by
the model's `lifecycle` (notes/assumptions/3.md). -/
def Obligations.LoadNeedsAFreshReset : Prop :=
  (∀ (s t : State) (bytes : List Byte), step s = .next t →
    hostLoad bytes t = .error .loadNotFresh) ∧
  (∀ (s t : State) (bytes bytes' : List Byte), hostLoad bytes s = .ok (t, .ok) →
    hostLoad bytes' t = .error .loadNotFresh) ∧
  (∀ (s : State) (bytes : List Byte), s.lifecycle = .created →
    hostLoad bytes s = .error .loadNotFresh) ∧
  (∀ (s : State) (bytes : List Byte), ∃ r, hostLoad bytes (hostReset s) = .ok r)

/-- The invariant holds at the reset state and at every state the host's reset and load give. Its clause on
memory is the canonical form, the model's choice (notes/assumptions/6.md); its bounds on PC and the stack
are those of R26, marked by the spec as its own inference. -/
def Obligations.InvariantHoldsAfterResetAndLoad : Prop :=
  State.reset.Inv ∧ ∀ (s t : State) (bytes : List Byte) (st : LoadStatus),
    (hostReset s).Inv ∧ (hostLoad bytes (hostReset s) = .ok (t, st) → t.Inv)

/-- Every step keeps the invariant: memory stays in canonical form, PC stays at most 0x10FE, every stack
entry at most 0xFFE (R26). The canonical form is the model's choice (notes/assumptions/6.md), and R26 is
marked by the spec as its own inference. -/
def Obligations.StepKeepsTheInvariant : Prop :=
  ∀ s t : State, s.Inv → step s = .next t → t.Inv

/-- At a self-loop the machine stays at it for ever, and only DT, ST, DRAW and the outputs can still
change (R313 b); `rndIndex` and `lifecycle` are the model's own fields. The end of a run is the spec's
decision D27 (notes/assumptions/7.md). -/
def Obligations.SelfLoopOnlyTicks : Prop :=
  ∀ s : State, s.AtSelfLoop →
    ∃ t, step s = .next t ∧ t.AtSelfLoop ∧ OnlyChanges s t Part.cycleParts
end

