-- ==== Sys2Proof/Laws/Decode.lean ====
section
/-! SUPPORT. Fields and layouts as numbers, so that facts about encodings are linear arithmetic; each
field of each layout; the bytes of a word. -/

namespace Sys2Proof

/-! ### Layouts and fields as numbers -/

theorem toNat_append_eq {m n : Nat} (a : BitVec m) (b : BitVec n) :
    (a ++ b).toNat = a.toNat * 2 ^ n + b.toNat := by
  rw [BitVec.toNat_append, ← Nat.shiftLeft_add_eq_or_of_lt b.isLt, Nat.shiftLeft_eq]

theorem packXYN_toNat (op x y n : BitVec 4) :
    (packXYN op x y n).toNat = op.toNat * 4096 + x.toNat * 256 + y.toNat * 16 + n.toNat := by
  show (op ++ x ++ y ++ n).toNat = _
  simp only [toNat_append_eq]
  omega

theorem packXNN_toNat (op x : BitVec 4) (nn : Byte) :
    (packXNN op x nn).toNat = op.toNat * 4096 + x.toNat * 256 + nn.toNat := by
  show (op ++ x ++ nn).toNat = _
  simp only [toNat_append_eq]
  omega

theorem packNNN_toNat (op : BitVec 4) (nnn : Addr12) :
    (packNNN op nnn).toNat = op.toNat * 4096 + nnn.toNat := by
  show (op ++ nnn).toNat = _
  simp only [toNat_append_eq]
  omega

theorem opField_toNat (w : Word) : (opField w).toNat = w.toNat / 4096 % 16 := by
  simp [opField, Nat.shiftRight_eq_div_pow]

theorem nField_toNat (w : Word) : (nField w).toNat = w.toNat % 16 := by simp [nField]

theorem nnField_toNat (w : Word) : (nnField w).toNat = w.toNat % 256 := by simp [nnField]

theorem nnnField_toNat (w : Word) : (nnnField w).toNat = w.toNat % 4096 := by simp [nnnField]

theorem xField_val (w : Word) : (xField w).val = w.toNat / 256 % 16 := by
  simp [xField, Nat.shiftRight_eq_div_pow]

theorem yField_val (w : Word) : (yField w).val = w.toNat / 16 % 16 := by
  simp [yField, Nat.shiftRight_eq_div_pow]

theorem heightField_val (w : Word) : (heightField w).val = w.toNat % 16 := by
  simp [heightField, nField_toNat]

theorem regBits_toNat (r : Reg) : (regBits r).toNat = r.val := by simp [regBits]

theorem heightBits_toNat (n : Height) : (heightBits n).toNat = n.val := by simp [heightBits]

/-! ### The fields of each layout -/

@[simp] theorem opField_packXYN (op x y n : BitVec 4) : opField (packXYN op x y n) = op := by
  apply BitVec.eq_of_toNat_eq
  rw [opField_toNat, packXYN_toNat]
  omega

@[simp] theorem opField_packXNN (op x : BitVec 4) (nn : Byte) : opField (packXNN op x nn) = op := by
  apply BitVec.eq_of_toNat_eq
  rw [opField_toNat, packXNN_toNat]
  omega

@[simp] theorem opField_packNNN (op : BitVec 4) (nnn : Addr12) : opField (packNNN op nnn) = op := by
  apply BitVec.eq_of_toNat_eq
  rw [opField_toNat, packNNN_toNat]
  omega

@[simp] theorem xField_packXYN (op : BitVec 4) (r : Reg) (y n : BitVec 4) :
    xField (packXYN op (regBits r) y n) = r := by
  apply Fin.ext
  rw [xField_val, packXYN_toNat, regBits_toNat]
  omega

@[simp] theorem xField_packXNN (op : BitVec 4) (r : Reg) (nn : Byte) :
    xField (packXNN op (regBits r) nn) = r := by
  apply Fin.ext
  rw [xField_val, packXNN_toNat, regBits_toNat]
  omega

@[simp] theorem yField_packXYN (op x : BitVec 4) (r : Reg) (n : BitVec 4) :
    yField (packXYN op x (regBits r) n) = r := by
  apply Fin.ext
  rw [yField_val, packXYN_toNat, regBits_toNat]
  omega

@[simp] theorem nField_packXYN (op x y n : BitVec 4) : nField (packXYN op x y n) = n := by
  apply BitVec.eq_of_toNat_eq
  rw [nField_toNat, packXYN_toNat]
  omega

@[simp] theorem heightField_packXYN (op x y : BitVec 4) (n : Height) :
    heightField (packXYN op x y (heightBits n)) = n := by
  apply Fin.ext
  rw [heightField_val, packXYN_toNat, heightBits_toNat]
  omega

@[simp] theorem nnField_packXNN (op x : BitVec 4) (nn : Byte) : nnField (packXNN op x nn) = nn := by
  apply BitVec.eq_of_toNat_eq
  rw [nnField_toNat, packXNN_toNat]
  omega

@[simp] theorem nnnField_packNNN (op : BitVec 4) (nnn : Addr12) :
    nnnField (packNNN op nnn) = nnn := by
  apply BitVec.eq_of_toNat_eq
  rw [nnnField_toNat, packNNN_toNat]
  omega

/-! ### Masked layouts (R74) -/

theorem and_ones4 (a : BitVec 4) : a &&& 0xF#4 = a := BitVec.and_allOnes

theorem packNNN_and_op (op : BitVec 4) (a : Addr12) :
    packNNN op a &&& 0xF000#16 = packNNN op 0x000#12 :=
  (BitVec.and_append (x₁ := op) (x₂ := 0xF#4) (y₁ := a) (y₂ := 0x000#12)).trans (by
    rw [and_ones4, BitVec.and_zero]
    rfl)

theorem packXNN_and_op (op x : BitVec 4) (nn : Byte) :
    packXNN op x nn &&& 0xF000#16 = packXNN op 0x0#4 0x00#8 :=
  (BitVec.and_append (x₁ := op ++ x) (x₂ := 0xF#4 ++ 0x0#4) (y₁ := nn) (y₂ := 0x00#8)).trans (by
    rw [BitVec.and_append, and_ones4, BitVec.and_zero, BitVec.and_zero]
    rfl)

theorem packXNN_and_sel (op x : BitVec 4) (nn : Byte) :
    packXNN op x nn &&& 0xF0FF#16 = packXNN op 0x0#4 nn :=
  (BitVec.and_append (x₁ := op ++ x) (x₂ := 0xF#4 ++ 0x0#4) (y₁ := nn) (y₂ := 0xFF#8)).trans (by
    rw [BitVec.and_append, and_ones4, BitVec.and_zero,
      show nn &&& 0xFF#8 = nn from BitVec.and_allOnes]
    rfl)

theorem packXYN_and_op (op x y n : BitVec 4) :
    packXYN op x y n &&& 0xF000#16 = packXYN op 0x0#4 0x0#4 0x0#4 :=
  (BitVec.and_append (x₁ := op ++ x ++ y) (x₂ := 0xF#4 ++ 0x0#4 ++ 0x0#4) (y₁ := n)
    (y₂ := 0x0#4)).trans (by
    rw [BitVec.and_append, BitVec.and_append, and_ones4, BitVec.and_zero, BitVec.and_zero,
      BitVec.and_zero]
    rfl)

theorem packXYN_and_sel (op x y n : BitVec 4) :
    packXYN op x y n &&& 0xF00F#16 = packXYN op 0x0#4 0x0#4 n :=
  (BitVec.and_append (x₁ := op ++ x ++ y) (x₂ := 0xF#4 ++ 0x0#4 ++ 0x0#4) (y₁ := n)
    (y₂ := 0xF#4)).trans (by
    rw [BitVec.and_append, BitVec.and_append, and_ones4, and_ones4, BitVec.and_zero,
      BitVec.and_zero]
    rfl)

/-! ### Bytes of a word (R52) -/

@[simp] theorem wordOfBytes_bytes (w : Word) : wordOfBytes (highByte w) (lowByte w) = w := by
  apply BitVec.eq_of_toNat_eq
  show (highByte w ++ lowByte w).toNat = _
  rw [toNat_append_eq]
  simp only [highByte, lowByte, BitVec.extractLsb'_toNat, Nat.shiftRight_eq_div_pow]
  omega

/-- The word two bytes make, high byte first, as a number. -/
theorem wordOfBytes_toNat (hi lo : Byte) :
    (wordOfBytes hi lo).toNat = hi.toNat * 256 + lo.toNat := by
  simpa [wordOfBytes] using toNat_append_eq hi lo

/-- What the byte decoder answers on a word's two bytes and whatever follows them. -/
theorem decode_bytesOfWord (w : Word) (rest : List Byte) :
    decode (bytesOfWord w ++ rest) =
      match decodeWord w with
      | some i => .ok (i, rest)
      | none => .error (.unknownOpcode w) := by
  cases h : decodeWord w <;>
    simp only [bytesOfWord, List.cons_append, List.nil_append, decode, wordOfBytes_bytes, h]

/-- The host's entry to the decoder is the word decoder on the table's 16 bits. -/
theorem decodeTableWord_eq (nbits w : Nat) :
    decodeTableWord nbits w = decodeWord (tableWord nbits w) := by
  have h := decode_bytesOfWord (tableWord nbits w) []
  rw [List.append_nil] at h
  rw [decodeTableWord, h]
  cases decodeWord (tableWord nbits w) <;> rfl

end Sys2Proof
end

