-- ==== Sys2Proof/Laws/State.lean ====
section
/-! SUPPORT. One lemma per field and update of the state, each true by rfl and a simp lemma, and the same
for the accessors `getV`, `stackEntry`, `cell` and `readMem`, so that no proof unfolds a record update. -/

namespace Sys2Proof.Machine

variable (s : State)


/-! ### setV -/

@[simp] theorem State.setV_v (r : Reg) (b : Byte) : (s.setV r b).v = s.v.set r.val b r.isLt := rfl
@[simp] theorem State.setV_index (r : Reg) (b : Byte) : (s.setV r b).index = s.index := rfl
@[simp] theorem State.setV_pc (r : Reg) (b : Byte) : (s.setV r b).pc = s.pc := rfl
@[simp] theorem State.setV_stack (r : Reg) (b : Byte) : (s.setV r b).stack = s.stack := rfl
@[simp] theorem State.setV_sp (r : Reg) (b : Byte) : (s.setV r b).sp = s.sp := rfl
@[simp] theorem State.setV_dt (r : Reg) (b : Byte) : (s.setV r b).dt = s.dt := rfl
@[simp] theorem State.setV_st (r : Reg) (b : Byte) : (s.setV r b).st = s.st := rfl
@[simp] theorem State.setV_mem (r : Reg) (b : Byte) : (s.setV r b).mem = s.mem := rfl
@[simp] theorem State.setV_fb (r : Reg) (b : Byte) : (s.setV r b).fb = s.fb := rfl
@[simp] theorem State.setV_keys (r : Reg) (b : Byte) : (s.setV r b).keys = s.keys := rfl
@[simp] theorem State.setV_draw (r : Reg) (b : Byte) : (s.setV r b).draw = s.draw := rfl
@[simp] theorem State.setV_params (r : Reg) (b : Byte) : (s.setV r b).params = s.params := rfl
@[simp] theorem State.setV_rndIndex (r : Reg) (b : Byte) : (s.setV r b).rndIndex = s.rndIndex := rfl
@[simp] theorem State.setV_lifecycle (r : Reg) (b : Byte) : (s.setV r b).lifecycle = s.lifecycle := rfl
@[simp] theorem State.setV_out (r : Reg) (b : Byte) : (s.setV r b).out = s.out := rfl
@[simp] theorem State.setV_stackEntry (r : Reg) (b : Byte) (k : Fin 16) : (s.setV r b).stackEntry k = s.stackEntry k := rfl
@[simp] theorem State.setV_cell (r : Reg) (b : Byte) (c : Nat) : (s.setV r b).cell c = s.cell c := rfl
@[simp] theorem State.setV_readMem (r : Reg) (b : Byte) (a' : Nat) : (s.setV r b).readMem a' = s.readMem a' := rfl

/-! ### setRegBlock -/

@[simp] theorem State.setRegBlock_v (x : Reg) (f : Nat → Byte) : (s.setRegBlock x f).v = s.v.mapFinIdx fun k b _ => if k ≤ x.val then f k else b := rfl
@[simp] theorem State.setRegBlock_index (x : Reg) (f : Nat → Byte) : (s.setRegBlock x f).index = s.index := rfl
@[simp] theorem State.setRegBlock_pc (x : Reg) (f : Nat → Byte) : (s.setRegBlock x f).pc = s.pc := rfl
@[simp] theorem State.setRegBlock_stack (x : Reg) (f : Nat → Byte) : (s.setRegBlock x f).stack = s.stack := rfl
@[simp] theorem State.setRegBlock_sp (x : Reg) (f : Nat → Byte) : (s.setRegBlock x f).sp = s.sp := rfl
@[simp] theorem State.setRegBlock_dt (x : Reg) (f : Nat → Byte) : (s.setRegBlock x f).dt = s.dt := rfl
@[simp] theorem State.setRegBlock_st (x : Reg) (f : Nat → Byte) : (s.setRegBlock x f).st = s.st := rfl
@[simp] theorem State.setRegBlock_mem (x : Reg) (f : Nat → Byte) : (s.setRegBlock x f).mem = s.mem := rfl
@[simp] theorem State.setRegBlock_fb (x : Reg) (f : Nat → Byte) : (s.setRegBlock x f).fb = s.fb := rfl
@[simp] theorem State.setRegBlock_keys (x : Reg) (f : Nat → Byte) : (s.setRegBlock x f).keys = s.keys := rfl
@[simp] theorem State.setRegBlock_draw (x : Reg) (f : Nat → Byte) : (s.setRegBlock x f).draw = s.draw := rfl
@[simp] theorem State.setRegBlock_params (x : Reg) (f : Nat → Byte) : (s.setRegBlock x f).params = s.params := rfl
@[simp] theorem State.setRegBlock_rndIndex (x : Reg) (f : Nat → Byte) : (s.setRegBlock x f).rndIndex = s.rndIndex := rfl
@[simp] theorem State.setRegBlock_lifecycle (x : Reg) (f : Nat → Byte) : (s.setRegBlock x f).lifecycle = s.lifecycle := rfl
@[simp] theorem State.setRegBlock_out (x : Reg) (f : Nat → Byte) : (s.setRegBlock x f).out = s.out := rfl
@[simp] theorem State.setRegBlock_stackEntry (x : Reg) (f : Nat → Byte) (k : Fin 16) : (s.setRegBlock x f).stackEntry k = s.stackEntry k := rfl
@[simp] theorem State.setRegBlock_cell (x : Reg) (f : Nat → Byte) (c : Nat) : (s.setRegBlock x f).cell c = s.cell c := rfl
@[simp] theorem State.setRegBlock_readMem (x : Reg) (f : Nat → Byte) (a' : Nat) : (s.setRegBlock x f).readMem a' = s.readMem a' := rfl

/-! ### setPc -/

@[simp] theorem State.setPc_v (t : Word) : (s.setPc t).v = s.v := rfl
@[simp] theorem State.setPc_index (t : Word) : (s.setPc t).index = s.index := rfl
@[simp] theorem State.setPc_pc (t : Word) : (s.setPc t).pc = t := rfl
@[simp] theorem State.setPc_stack (t : Word) : (s.setPc t).stack = s.stack := rfl
@[simp] theorem State.setPc_sp (t : Word) : (s.setPc t).sp = s.sp := rfl
@[simp] theorem State.setPc_dt (t : Word) : (s.setPc t).dt = s.dt := rfl
@[simp] theorem State.setPc_st (t : Word) : (s.setPc t).st = s.st := rfl
@[simp] theorem State.setPc_mem (t : Word) : (s.setPc t).mem = s.mem := rfl
@[simp] theorem State.setPc_fb (t : Word) : (s.setPc t).fb = s.fb := rfl
@[simp] theorem State.setPc_keys (t : Word) : (s.setPc t).keys = s.keys := rfl
@[simp] theorem State.setPc_draw (t : Word) : (s.setPc t).draw = s.draw := rfl
@[simp] theorem State.setPc_params (t : Word) : (s.setPc t).params = s.params := rfl
@[simp] theorem State.setPc_rndIndex (t : Word) : (s.setPc t).rndIndex = s.rndIndex := rfl
@[simp] theorem State.setPc_lifecycle (t : Word) : (s.setPc t).lifecycle = s.lifecycle := rfl
@[simp] theorem State.setPc_out (t : Word) : (s.setPc t).out = s.out := rfl
@[simp] theorem State.setPc_getV (t : Word) (r' : Reg) : (s.setPc t).getV r' = s.getV r' := rfl
@[simp] theorem State.setPc_stackEntry (t : Word) (k : Fin 16) : (s.setPc t).stackEntry k = s.stackEntry k := rfl
@[simp] theorem State.setPc_cell (t : Word) (c : Nat) : (s.setPc t).cell c = s.cell c := rfl
@[simp] theorem State.setPc_readMem (t : Word) (a' : Nat) : (s.setPc t).readMem a' = s.readMem a' := rfl

/-! ### setIndex -/

@[simp] theorem State.setIndex_v (w : Word) : (s.setIndex w).v = s.v := rfl
@[simp] theorem State.setIndex_index (w : Word) : (s.setIndex w).index = w := rfl
@[simp] theorem State.setIndex_pc (w : Word) : (s.setIndex w).pc = s.pc := rfl
@[simp] theorem State.setIndex_stack (w : Word) : (s.setIndex w).stack = s.stack := rfl
@[simp] theorem State.setIndex_sp (w : Word) : (s.setIndex w).sp = s.sp := rfl
@[simp] theorem State.setIndex_dt (w : Word) : (s.setIndex w).dt = s.dt := rfl
@[simp] theorem State.setIndex_st (w : Word) : (s.setIndex w).st = s.st := rfl
@[simp] theorem State.setIndex_mem (w : Word) : (s.setIndex w).mem = s.mem := rfl
@[simp] theorem State.setIndex_fb (w : Word) : (s.setIndex w).fb = s.fb := rfl
@[simp] theorem State.setIndex_keys (w : Word) : (s.setIndex w).keys = s.keys := rfl
@[simp] theorem State.setIndex_draw (w : Word) : (s.setIndex w).draw = s.draw := rfl
@[simp] theorem State.setIndex_params (w : Word) : (s.setIndex w).params = s.params := rfl
@[simp] theorem State.setIndex_rndIndex (w : Word) : (s.setIndex w).rndIndex = s.rndIndex := rfl
@[simp] theorem State.setIndex_lifecycle (w : Word) : (s.setIndex w).lifecycle = s.lifecycle := rfl
@[simp] theorem State.setIndex_out (w : Word) : (s.setIndex w).out = s.out := rfl
@[simp] theorem State.setIndex_getV (w : Word) (r' : Reg) : (s.setIndex w).getV r' = s.getV r' := rfl
@[simp] theorem State.setIndex_stackEntry (w : Word) (k : Fin 16) : (s.setIndex w).stackEntry k = s.stackEntry k := rfl
@[simp] theorem State.setIndex_cell (w : Word) (c : Nat) : (s.setIndex w).cell c = s.cell c := rfl
@[simp] theorem State.setIndex_readMem (w : Word) (a' : Nat) : (s.setIndex w).readMem a' = s.readMem a' := rfl

/-! ### setDt -/

@[simp] theorem State.setDt_v (b : Byte) : (s.setDt b).v = s.v := rfl
@[simp] theorem State.setDt_index (b : Byte) : (s.setDt b).index = s.index := rfl
@[simp] theorem State.setDt_pc (b : Byte) : (s.setDt b).pc = s.pc := rfl
@[simp] theorem State.setDt_stack (b : Byte) : (s.setDt b).stack = s.stack := rfl
@[simp] theorem State.setDt_sp (b : Byte) : (s.setDt b).sp = s.sp := rfl
@[simp] theorem State.setDt_dt (b : Byte) : (s.setDt b).dt = b := rfl
@[simp] theorem State.setDt_st (b : Byte) : (s.setDt b).st = s.st := rfl
@[simp] theorem State.setDt_mem (b : Byte) : (s.setDt b).mem = s.mem := rfl
@[simp] theorem State.setDt_fb (b : Byte) : (s.setDt b).fb = s.fb := rfl
@[simp] theorem State.setDt_keys (b : Byte) : (s.setDt b).keys = s.keys := rfl
@[simp] theorem State.setDt_draw (b : Byte) : (s.setDt b).draw = s.draw := rfl
@[simp] theorem State.setDt_params (b : Byte) : (s.setDt b).params = s.params := rfl
@[simp] theorem State.setDt_rndIndex (b : Byte) : (s.setDt b).rndIndex = s.rndIndex := rfl
@[simp] theorem State.setDt_lifecycle (b : Byte) : (s.setDt b).lifecycle = s.lifecycle := rfl
@[simp] theorem State.setDt_out (b : Byte) : (s.setDt b).out = s.out := rfl
@[simp] theorem State.setDt_getV (b : Byte) (r' : Reg) : (s.setDt b).getV r' = s.getV r' := rfl
@[simp] theorem State.setDt_stackEntry (b : Byte) (k : Fin 16) : (s.setDt b).stackEntry k = s.stackEntry k := rfl
@[simp] theorem State.setDt_cell (b : Byte) (c : Nat) : (s.setDt b).cell c = s.cell c := rfl
@[simp] theorem State.setDt_readMem (b : Byte) (a' : Nat) : (s.setDt b).readMem a' = s.readMem a' := rfl

/-! ### setSt -/

@[simp] theorem State.setSt_v (b : Byte) : (s.setSt b).v = s.v := rfl
@[simp] theorem State.setSt_index (b : Byte) : (s.setSt b).index = s.index := rfl
@[simp] theorem State.setSt_pc (b : Byte) : (s.setSt b).pc = s.pc := rfl
@[simp] theorem State.setSt_stack (b : Byte) : (s.setSt b).stack = s.stack := rfl
@[simp] theorem State.setSt_sp (b : Byte) : (s.setSt b).sp = s.sp := rfl
@[simp] theorem State.setSt_dt (b : Byte) : (s.setSt b).dt = s.dt := rfl
@[simp] theorem State.setSt_st (b : Byte) : (s.setSt b).st = b := rfl
@[simp] theorem State.setSt_mem (b : Byte) : (s.setSt b).mem = s.mem := rfl
@[simp] theorem State.setSt_fb (b : Byte) : (s.setSt b).fb = s.fb := rfl
@[simp] theorem State.setSt_keys (b : Byte) : (s.setSt b).keys = s.keys := rfl
@[simp] theorem State.setSt_draw (b : Byte) : (s.setSt b).draw = s.draw := rfl
@[simp] theorem State.setSt_params (b : Byte) : (s.setSt b).params = s.params := rfl
@[simp] theorem State.setSt_rndIndex (b : Byte) : (s.setSt b).rndIndex = s.rndIndex := rfl
@[simp] theorem State.setSt_lifecycle (b : Byte) : (s.setSt b).lifecycle = s.lifecycle := rfl
@[simp] theorem State.setSt_out (b : Byte) : (s.setSt b).out = s.out := rfl
@[simp] theorem State.setSt_getV (b : Byte) (r' : Reg) : (s.setSt b).getV r' = s.getV r' := rfl
@[simp] theorem State.setSt_stackEntry (b : Byte) (k : Fin 16) : (s.setSt b).stackEntry k = s.stackEntry k := rfl
@[simp] theorem State.setSt_cell (b : Byte) (c : Nat) : (s.setSt b).cell c = s.cell c := rfl
@[simp] theorem State.setSt_readMem (b : Byte) (a' : Nat) : (s.setSt b).readMem a' = s.readMem a' := rfl

/-! ### setScreen -/

@[simp] theorem State.setScreen_v (fb : Screen) : (s.setScreen fb).v = s.v := rfl
@[simp] theorem State.setScreen_index (fb : Screen) : (s.setScreen fb).index = s.index := rfl
@[simp] theorem State.setScreen_pc (fb : Screen) : (s.setScreen fb).pc = s.pc := rfl
@[simp] theorem State.setScreen_stack (fb : Screen) : (s.setScreen fb).stack = s.stack := rfl
@[simp] theorem State.setScreen_sp (fb : Screen) : (s.setScreen fb).sp = s.sp := rfl
@[simp] theorem State.setScreen_dt (fb : Screen) : (s.setScreen fb).dt = s.dt := rfl
@[simp] theorem State.setScreen_st (fb : Screen) : (s.setScreen fb).st = s.st := rfl
@[simp] theorem State.setScreen_mem (fb : Screen) : (s.setScreen fb).mem = s.mem := rfl
@[simp] theorem State.setScreen_fb (fb : Screen) : (s.setScreen fb).fb = fb := rfl
@[simp] theorem State.setScreen_keys (fb : Screen) : (s.setScreen fb).keys = s.keys := rfl
@[simp] theorem State.setScreen_draw (fb : Screen) : (s.setScreen fb).draw = true := rfl
@[simp] theorem State.setScreen_params (fb : Screen) : (s.setScreen fb).params = s.params := rfl
@[simp] theorem State.setScreen_rndIndex (fb : Screen) : (s.setScreen fb).rndIndex = s.rndIndex := rfl
@[simp] theorem State.setScreen_lifecycle (fb : Screen) : (s.setScreen fb).lifecycle = s.lifecycle := rfl
@[simp] theorem State.setScreen_out (fb : Screen) : (s.setScreen fb).out = s.out := rfl
@[simp] theorem State.setScreen_getV (fb : Screen) (r' : Reg) : (s.setScreen fb).getV r' = s.getV r' := rfl
@[simp] theorem State.setScreen_stackEntry (fb : Screen) (k : Fin 16) : (s.setScreen fb).stackEntry k = s.stackEntry k := rfl
@[simp] theorem State.setScreen_readMem (fb : Screen) (a' : Nat) : (s.setScreen fb).readMem a' = s.readMem a' := rfl

/-! ### push -/

@[simp] theorem State.push_v (w : Word) (h : s.sp.val < 16) : (s.push w h).v = s.v := rfl
@[simp] theorem State.push_index (w : Word) (h : s.sp.val < 16) : (s.push w h).index = s.index := rfl
@[simp] theorem State.push_pc (w : Word) (h : s.sp.val < 16) : (s.push w h).pc = s.pc := rfl
@[simp] theorem State.push_stack (w : Word) (h : s.sp.val < 16) : (s.push w h).stack = s.stack.set s.sp.val w h := rfl
@[simp] theorem State.push_sp (w : Word) (h : s.sp.val < 16) : (s.push w h).sp = ⟨s.sp.val + 1, by omega⟩ := rfl
@[simp] theorem State.push_dt (w : Word) (h : s.sp.val < 16) : (s.push w h).dt = s.dt := rfl
@[simp] theorem State.push_st (w : Word) (h : s.sp.val < 16) : (s.push w h).st = s.st := rfl
@[simp] theorem State.push_mem (w : Word) (h : s.sp.val < 16) : (s.push w h).mem = s.mem := rfl
@[simp] theorem State.push_fb (w : Word) (h : s.sp.val < 16) : (s.push w h).fb = s.fb := rfl
@[simp] theorem State.push_keys (w : Word) (h : s.sp.val < 16) : (s.push w h).keys = s.keys := rfl
@[simp] theorem State.push_draw (w : Word) (h : s.sp.val < 16) : (s.push w h).draw = s.draw := rfl
@[simp] theorem State.push_params (w : Word) (h : s.sp.val < 16) : (s.push w h).params = s.params := rfl
@[simp] theorem State.push_rndIndex (w : Word) (h : s.sp.val < 16) : (s.push w h).rndIndex = s.rndIndex := rfl
@[simp] theorem State.push_lifecycle (w : Word) (h : s.sp.val < 16) : (s.push w h).lifecycle = s.lifecycle := rfl
@[simp] theorem State.push_out (w : Word) (h : s.sp.val < 16) : (s.push w h).out = s.out := rfl
@[simp] theorem State.push_getV (w : Word) (h : s.sp.val < 16) (r' : Reg) : (s.push w h).getV r' = s.getV r' := rfl
@[simp] theorem State.push_cell (w : Word) (h : s.sp.val < 16) (c : Nat) : (s.push w h).cell c = s.cell c := rfl
@[simp] theorem State.push_readMem (w : Word) (h : s.sp.val < 16) (a' : Nat) : (s.push w h).readMem a' = s.readMem a' := rfl

/-! ### pop -/

@[simp] theorem State.pop_v : s.pop.v = s.v := rfl
@[simp] theorem State.pop_index : s.pop.index = s.index := rfl
@[simp] theorem State.pop_pc : s.pop.pc = s.pc := rfl
@[simp] theorem State.pop_stack : s.pop.stack = s.stack := rfl
@[simp] theorem State.pop_sp : s.pop.sp = ⟨s.sp.val - 1, by omega⟩ := rfl
@[simp] theorem State.pop_dt : s.pop.dt = s.dt := rfl
@[simp] theorem State.pop_st : s.pop.st = s.st := rfl
@[simp] theorem State.pop_mem : s.pop.mem = s.mem := rfl
@[simp] theorem State.pop_fb : s.pop.fb = s.fb := rfl
@[simp] theorem State.pop_keys : s.pop.keys = s.keys := rfl
@[simp] theorem State.pop_draw : s.pop.draw = s.draw := rfl
@[simp] theorem State.pop_params : s.pop.params = s.params := rfl
@[simp] theorem State.pop_rndIndex : s.pop.rndIndex = s.rndIndex := rfl
@[simp] theorem State.pop_lifecycle : s.pop.lifecycle = s.lifecycle := rfl
@[simp] theorem State.pop_out : s.pop.out = s.out := rfl
@[simp] theorem State.pop_getV (r' : Reg) : s.pop.getV r' = s.getV r' := rfl
@[simp] theorem State.pop_stackEntry (k : Fin 16) : s.pop.stackEntry k = s.stackEntry k := rfl
@[simp] theorem State.pop_cell (c : Nat) : s.pop.cell c = s.cell c := rfl
@[simp] theorem State.pop_readMem (a' : Nat) : s.pop.readMem a' = s.readMem a' := rfl

/-! ### storeBytes -/

@[simp] theorem State.storeBytes_v (a : Nat) (bs : List Byte) : (s.storeBytes a bs).v = s.v := rfl
@[simp] theorem State.storeBytes_index (a : Nat) (bs : List Byte) : (s.storeBytes a bs).index = s.index := rfl
@[simp] theorem State.storeBytes_pc (a : Nat) (bs : List Byte) : (s.storeBytes a bs).pc = s.pc := rfl
@[simp] theorem State.storeBytes_stack (a : Nat) (bs : List Byte) : (s.storeBytes a bs).stack = s.stack := rfl
@[simp] theorem State.storeBytes_sp (a : Nat) (bs : List Byte) : (s.storeBytes a bs).sp = s.sp := rfl
@[simp] theorem State.storeBytes_dt (a : Nat) (bs : List Byte) : (s.storeBytes a bs).dt = s.dt := rfl
@[simp] theorem State.storeBytes_st (a : Nat) (bs : List Byte) : (s.storeBytes a bs).st = s.st := rfl
@[simp] theorem State.storeBytes_mem (a : Nat) (bs : List Byte) : (s.storeBytes a bs).mem = s.mem.writeBytes s.params a bs := rfl
@[simp] theorem State.storeBytes_fb (a : Nat) (bs : List Byte) : (s.storeBytes a bs).fb = s.fb := rfl
@[simp] theorem State.storeBytes_keys (a : Nat) (bs : List Byte) : (s.storeBytes a bs).keys = s.keys := rfl
@[simp] theorem State.storeBytes_draw (a : Nat) (bs : List Byte) : (s.storeBytes a bs).draw = s.draw := rfl
@[simp] theorem State.storeBytes_params (a : Nat) (bs : List Byte) : (s.storeBytes a bs).params = s.params := rfl
@[simp] theorem State.storeBytes_rndIndex (a : Nat) (bs : List Byte) : (s.storeBytes a bs).rndIndex = s.rndIndex := rfl
@[simp] theorem State.storeBytes_lifecycle (a : Nat) (bs : List Byte) : (s.storeBytes a bs).lifecycle = s.lifecycle := rfl
@[simp] theorem State.storeBytes_out (a : Nat) (bs : List Byte) : (s.storeBytes a bs).out = s.out := rfl
@[simp] theorem State.storeBytes_getV (a : Nat) (bs : List Byte) (r' : Reg) : (s.storeBytes a bs).getV r' = s.getV r' := rfl
@[simp] theorem State.storeBytes_stackEntry (a : Nat) (bs : List Byte) (k : Fin 16) : (s.storeBytes a bs).stackEntry k = s.stackEntry k := rfl
@[simp] theorem State.storeBytes_cell (a : Nat) (bs : List Byte) (c : Nat) : (s.storeBytes a bs).cell c = s.cell c := rfl

/-! ### hostKeys -/

@[simp] theorem hostKeys_v (keys : BitVec 16) : (hostKeys keys s).v = s.v := rfl
@[simp] theorem hostKeys_index (keys : BitVec 16) : (hostKeys keys s).index = s.index := rfl
@[simp] theorem hostKeys_pc (keys : BitVec 16) : (hostKeys keys s).pc = s.pc := rfl
@[simp] theorem hostKeys_stack (keys : BitVec 16) : (hostKeys keys s).stack = s.stack := rfl
@[simp] theorem hostKeys_sp (keys : BitVec 16) : (hostKeys keys s).sp = s.sp := rfl
@[simp] theorem hostKeys_dt (keys : BitVec 16) : (hostKeys keys s).dt = s.dt := rfl
@[simp] theorem hostKeys_st (keys : BitVec 16) : (hostKeys keys s).st = s.st := rfl
@[simp] theorem hostKeys_mem (keys : BitVec 16) : (hostKeys keys s).mem = s.mem := rfl
@[simp] theorem hostKeys_fb (keys : BitVec 16) : (hostKeys keys s).fb = s.fb := rfl
@[simp] theorem hostKeys_keys (keys : BitVec 16) : (hostKeys keys s).keys = keys := rfl
@[simp] theorem hostKeys_draw (keys : BitVec 16) : (hostKeys keys s).draw = s.draw := rfl
@[simp] theorem hostKeys_params (keys : BitVec 16) : (hostKeys keys s).params = s.params := rfl
@[simp] theorem hostKeys_rndIndex (keys : BitVec 16) : (hostKeys keys s).rndIndex = s.rndIndex := rfl
@[simp] theorem hostKeys_lifecycle (keys : BitVec 16) : (hostKeys keys s).lifecycle = s.lifecycle := rfl
@[simp] theorem hostKeys_out (keys : BitVec 16) : (hostKeys keys s).out = s.out := rfl
@[simp] theorem hostKeys_getV (keys : BitVec 16) (r' : Reg) : (hostKeys keys s).getV r' = s.getV r' := rfl
@[simp] theorem hostKeys_stackEntry (keys : BitVec 16) (k : Fin 16) : (hostKeys keys s).stackEntry k = s.stackEntry k := rfl
@[simp] theorem hostKeys_cell (keys : BitVec 16) (c : Nat) : (hostKeys keys s).cell c = s.cell c := rfl
@[simp] theorem hostKeys_readMem (keys : BitVec 16) (a' : Nat) : (hostKeys keys s).readMem a' = s.readMem a' := rfl

/-! ### report -/

@[simp] theorem State.report_v (status : Status) (beep : Bool) : (s.report status beep).v = s.v := rfl
@[simp] theorem State.report_index (status : Status) (beep : Bool) : (s.report status beep).index = s.index := rfl
@[simp] theorem State.report_pc (status : Status) (beep : Bool) : (s.report status beep).pc = s.pc := rfl
@[simp] theorem State.report_stack (status : Status) (beep : Bool) : (s.report status beep).stack = s.stack := rfl
@[simp] theorem State.report_sp (status : Status) (beep : Bool) : (s.report status beep).sp = s.sp := rfl
@[simp] theorem State.report_dt (status : Status) (beep : Bool) : (s.report status beep).dt = s.dt := rfl
@[simp] theorem State.report_st (status : Status) (beep : Bool) : (s.report status beep).st = s.st := rfl
@[simp] theorem State.report_mem (status : Status) (beep : Bool) : (s.report status beep).mem = s.mem := rfl
@[simp] theorem State.report_fb (status : Status) (beep : Bool) : (s.report status beep).fb = s.fb := rfl
@[simp] theorem State.report_keys (status : Status) (beep : Bool) : (s.report status beep).keys = s.keys := rfl
@[simp] theorem State.report_draw (status : Status) (beep : Bool) : (s.report status beep).draw = false := rfl
@[simp] theorem State.report_params (status : Status) (beep : Bool) : (s.report status beep).params = s.params := rfl
@[simp] theorem State.report_rndIndex (status : Status) (beep : Bool) : (s.report status beep).rndIndex = s.rndIndex + 1 := rfl
@[simp] theorem State.report_lifecycle (status : Status) (beep : Bool) : (s.report status beep).lifecycle = .running := rfl
@[simp] theorem State.report_out (status : Status) (beep : Bool) : (s.report status beep).out = ⟨status, s.draw, beep⟩ := rfl
@[simp] theorem State.report_getV (status : Status) (beep : Bool) (r' : Reg) : (s.report status beep).getV r' = s.getV r' := rfl
@[simp] theorem State.report_stackEntry (status : Status) (beep : Bool) (k : Fin 16) : (s.report status beep).stackEntry k = s.stackEntry k := rfl
@[simp] theorem State.report_cell (status : Status) (beep : Bool) (c : Nat) : (s.report status beep).cell c = s.cell c := rfl
@[simp] theorem State.report_readMem (status : Status) (beep : Bool) (a' : Nat) : (s.report status beep).readMem a' = s.readMem a' := rfl

/-! ### Derived updates rewrite to the ones above -/

@[simp] theorem State.advance_eq : s.advance = s.setPc (s.pc + 2#16) := rfl
@[simp] theorem State.skipIf_eq (c : Bool) : s.skipIf c = s.setPc (s.pc + if c then 4#16 else 2#16) := rfl
@[simp] theorem State.setResultAndFlag_eq (x : Reg) (b : Byte) (f : Bool) :
    s.setResultAndFlag x b f = (s.setV x b).setV regF (flagByte f) := rfl
@[simp] theorem State.tickTimers_eq :
    s.tickTimers = (s.setDt (countDown s.dt)).setSt (countDown s.st) := rfl
@[simp] theorem State.endCycle_eq (status : Status) :
    s.endCycle status = s.tickTimers.report status s.beeps := rfl

/-! ### The written part -/

@[simp] theorem State.setV_getV_same (r : Reg) (b : Byte) : (s.setV r b).getV r = b := by
  simp [State.getV, State.setV]

theorem State.setV_getV_of_ne {r r' : Reg} (b : Byte) (h : r' ≠ r) :
    (s.setV r b).getV r' = s.getV r' := by
  have : r.val ≠ r'.val := fun e => h (Fin.ext e.symm)
  simp [State.getV, State.setV, this]

theorem State.setV_getV (r r' : Reg) (b : Byte) :
    (s.setV r b).getV r' = if r' = r then b else s.getV r' := by
  by_cases h : r' = r
  · subst h; simp
  · simp [h, State.setV_getV_of_ne s b h]

@[simp] theorem State.setRegBlock_getV (x r : Reg) (f : Nat → Byte) :
    (s.setRegBlock x f).getV r = if r ≤ x then f r.val else s.getV r := by
  unfold State.getV State.setRegBlock
  rw [Vector.getElem_mapFinIdx]
  rfl

@[simp] theorem State.setScreen_cell (fb : Screen) (c : Nat) :
    (s.setScreen fb).cell c = Screen.cell fb c := rfl

theorem State.push_stackEntry (w : Word) (h : s.sp.val < 16) (k : Fin 16) :
    (s.push w h).stackEntry k = if k.val = s.sp.val then w else s.stackEntry k := by
  simp [State.push, State.stackEntry, Vector.getElem_set, eq_comm]

/-- The entry just pushed is the most recent return address (R27). -/
@[simp] theorem State.push_topOfStack (w : Word) (h : s.sp.val < 16) (h' : 0 < (s.push w h).sp.val) :
    (s.push w h).topOfStack h' = w := by
  simp [State.topOfStack, State.push_stackEntry]

/-- The result of an instruction that sets a flag, register by register: the flag wins in VF (R22). -/
theorem State.setResultAndFlag_getV (x r : Reg) (b : Byte) (f : Bool) :
    (s.setResultAndFlag x b f).getV r =
      if r = regF then flagByte f else if r = x then b else s.getV r := by
  simp [State.setV_getV]

end Sys2Proof.Machine
end

