-- ==== Sys2Proof/Laws/Memory.lean ====
section
/-! SUPPORT. The laws of memory: read after write, the canonical form kept by every operation, and what a
run of stores writes. -/

namespace Sys2Proof.Machine

/-! ### The listed bytes -/

@[simp] theorem Memory.listed_insert_same (m : Memory) (a : Nat) (b : Byte) :
    (m.insert a b).listed a = some b := by
  induction m with
  | nil => simp [Memory.insert, Memory.listed]
  | cons c m ih =>
    obtain ⟨a', b'⟩ := c
    simp only [Memory.insert]
    split
    · simp [Memory.listed]
    · split
      · simp [Memory.listed]
      · simp_all [Memory.listed]

theorem Memory.listed_insert_of_ne (m : Memory) {a a' : Nat} (b : Byte) (h : a' ≠ a) :
    (m.insert a b).listed a' = m.listed a' := by
  induction m with
  | nil => simp [Memory.insert, Memory.listed, h]
  | cons c m ih =>
    obtain ⟨a₁, b₁⟩ := c
    simp only [Memory.insert]
    split
    · simp [Memory.listed, h]
    · split
      · rename_i h₂; subst h₂; simp [Memory.listed, h]
      · simp [Memory.listed, ih]

@[simp] theorem Memory.listed_erase_same (m : Memory) (a : Nat) : (m.erase a).listed a = none := by
  induction m with
  | nil => rfl
  | cons c m ih =>
    obtain ⟨a₁, b₁⟩ := c
    simp only [Memory.erase]
    split
    · exact ih
    · simp_all [Memory.listed]

theorem Memory.listed_erase_of_ne (m : Memory) {a a' : Nat} (h : a' ≠ a) :
    (m.erase a).listed a' = m.listed a' := by
  induction m with
  | nil => rfl
  | cons c m ih =>
    obtain ⟨a₁, b₁⟩ := c
    simp only [Memory.erase]
    split
    · rename_i h₂; subst h₂; simp [Memory.listed, h, ih]
    · simp [Memory.listed, ih]

/-! ### Read after write -/

/-- A write inside memory is read back (R61). -/
theorem Memory.read_write_same (p : Params) (m : Memory) {a : Nat} (b : Byte) (h : a < 4096) :
    (m.write p a b).read p a = b := by
  simp only [Memory.write, h, if_true]
  split
  · rename_i hb; simp [Memory.read, hb]
  · simp [Memory.read]

/-- A write leaves every other address alone (R57, R61). -/
theorem Memory.read_write_of_ne (p : Params) (m : Memory) {a a' : Nat} (b : Byte) (h : a' ≠ a) :
    (m.write p a b).read p a' = m.read p a' := by
  unfold Memory.write
  split
  · split
    · simp [Memory.read, Memory.listed_erase_of_ne m h]
    · simp [Memory.read, Memory.listed_insert_of_ne m b h]
  · rfl

/-- What a run of stores leaves at every address inside memory (R53). -/
theorem Memory.read_writeBytes (p : Params) (bs : List Byte) (m : Memory) (a a' : Nat)
    (h : a + bs.length ≤ 4096) :
    (m.writeBytes p a bs).read p a' =
      if h' : a ≤ a' ∧ a' < a + bs.length then bs[a' - a]'(by omega) else m.read p a' := by
  induction bs generalizing m a with
  | nil =>
    rw [dif_neg (by simp)]
    rfl
  | cons b bs ih =>
    simp only [List.length_cons] at h
    simp only [Memory.writeBytes]
    rw [ih _ (a + 1) (by omega)]
    by_cases h₁ : a' = a
    · subst h₁
      rw [dif_neg (by omega), dif_pos (by simp)]
      simp [Memory.read_write_same p m b (by omega : a' < 4096)]
    · by_cases h₂ : a + 1 ≤ a' ∧ a' < a + 1 + bs.length
      · rw [dif_pos h₂, dif_pos (by simp; omega)]
        have e : a' - a = (a' - (a + 1)) + 1 := by omega
        simp [e]
      · rw [dif_neg h₂, dif_neg (by simp; omega)]
        exact Memory.read_write_of_ne p m b h₁

/-- A run of stores leaves every address outside it alone, wherever it lies. -/
theorem Memory.read_writeBytes_outside (p : Params) (bs : List Byte) (m : Memory) (a a' : Nat)
    (h : a' < a ∨ a + bs.length ≤ a') : (m.writeBytes p a bs).read p a' = m.read p a' := by
  induction bs generalizing m a with
  | nil => rfl
  | cons b bs ih =>
    simp only [List.length_cons] at h
    simp only [Memory.writeBytes]
    rw [ih _ (a + 1) (by omega), Memory.read_write_of_ne p m b (by omega)]

/-! ### The canonical form -/

theorem Memory.mem_insert {m : Memory} {a : Nat} {b : Byte} {c : Host.Cell} (h : c ∈ m.insert a b) :
    c = (a, b) ∨ c ∈ m := by
  induction m with
  | nil => simpa [Memory.insert] using h
  | cons c₁ m ih =>
    obtain ⟨a₁, b₁⟩ := c₁
    simp only [Memory.insert] at h
    split at h
    · simpa using h
    · split at h
      · rcases List.mem_cons.1 h with h | h
        · exact .inl h
        · exact .inr (List.mem_cons_of_mem _ h)
      · rcases List.mem_cons.1 h with h | h
        · exact .inr (h ▸ List.mem_cons_self)
        · exact (ih h).imp_right (List.mem_cons_of_mem _)

theorem Memory.mem_erase {m : Memory} {a : Nat} {c : Host.Cell} (h : c ∈ m.erase a) :
    c ∈ m ∧ c.1 ≠ a := by
  induction m with
  | nil => simp [Memory.erase] at h
  | cons c₁ m ih =>
    obtain ⟨a₁, b₁⟩ := c₁
    simp only [Memory.erase] at h
    split at h
    · exact ⟨List.mem_cons_of_mem _ (ih h).1, (ih h).2⟩
    · rename_i hne
      rcases List.mem_cons.1 h with h | h
      · subst h; exact ⟨List.mem_cons_self, fun e => hne e.symm⟩
      · exact ⟨List.mem_cons_of_mem _ (ih h).1, (ih h).2⟩

theorem Memory.rising_insert {m : Memory} (a : Nat) (b : Byte)
    (h : m.Pairwise (fun c d => c.1 < d.1)) : (m.insert a b).Pairwise (fun c d => c.1 < d.1) := by
  induction m with
  | nil => simp [Memory.insert]
  | cons c₁ m ih =>
    obtain ⟨a₁, b₁⟩ := c₁
    obtain ⟨h₁, h₂⟩ := List.pairwise_cons.1 h
    simp only [Memory.insert]
    split
    · rename_i hlt
      refine List.pairwise_cons.2 ⟨fun c hc => ?_, h⟩
      rcases List.mem_cons.1 hc with rfl | hc
      · exact hlt
      · exact Nat.lt_trans hlt (h₁ c hc)
    · split
      · rename_i heq
        subst heq
        exact List.pairwise_cons.2 ⟨h₁, h₂⟩
      · refine List.pairwise_cons.2 ⟨fun c hc => ?_, ih h₂⟩
        rcases Memory.mem_insert hc with rfl | hc
        · show a₁ < a
          omega
        · exact h₁ c hc

theorem Memory.rising_erase {m : Memory} (a : Nat) (h : m.Pairwise (fun c d => c.1 < d.1)) :
    (m.erase a).Pairwise (fun c d => c.1 < d.1) := by
  induction m with
  | nil => simp [Memory.erase]
  | cons c₁ m ih =>
    obtain ⟨a₁, b₁⟩ := c₁
    obtain ⟨h₁, h₂⟩ := List.pairwise_cons.1 h
    simp only [Memory.erase]
    split
    · exact ih h₂
    · exact List.pairwise_cons.2 ⟨fun c hc => h₁ c (Memory.mem_erase hc).1, ih h₂⟩

/-- The empty list is in canonical form. -/
theorem Memory.wf_nil (p : Params) : Memory.wf p [] := by simp [Memory.wf]

/-- A write keeps the canonical form. -/
theorem Memory.wf_write {p : Params} {m : Memory} (a : Nat) (b : Byte) (h : Memory.wf p m) :
    Memory.wf p (m.write p a b) := by
  unfold Memory.write
  split
  · split
    · exact ⟨Memory.rising_erase a h.1, fun c hc => h.2 c (Memory.mem_erase hc).1⟩
    · rename_i hlt hne
      refine ⟨Memory.rising_insert a b h.1, fun c hc => ?_⟩
      rcases Memory.mem_insert hc with rfl | hc
      · exact ⟨hlt, hne⟩
      · exact h.2 c hc
  · exact h

/-- A run of stores keeps the canonical form. -/
theorem Memory.wf_writeBytes {p : Params} (bs : List Byte) {m : Memory} (a : Nat)
    (h : Memory.wf p m) : Memory.wf p (m.writeBytes p a bs) := by
  induction bs generalizing m a with
  | nil => exact h
  | cons b bs ih => exact ih (a + 1) (Memory.wf_write a b h)

/-! ### The machine's accessors -/

/-- `storeBytes` inside memory, read back address by address. -/
theorem State.storeBytes_readMem (s : State) (a : Nat) (bs : List Byte) (a' : Nat)
    (h : a + bs.length ≤ 4096) :
    (s.storeBytes a bs).readMem a' =
      if h' : a ≤ a' ∧ a' < a + bs.length then bs[a' - a]'(by omega) else s.readMem a' :=
  Memory.read_writeBytes s.params bs s.mem a a' h

/-- `storeBytes` leaves every address outside the stored bytes alone. -/
theorem State.storeBytes_readMem_outside (s : State) (a : Nat) (bs : List Byte) (a' : Nat)
    (h : a' < a ∨ a + bs.length ≤ a') : (s.storeBytes a bs).readMem a' = s.readMem a' :=
  Memory.read_writeBytes_outside s.params bs s.mem a a' h

end Sys2Proof.Machine
end

