-- ==== Sys2Proof/Laws/Ops.lean ====
section
/-! SUPPORT. For each shared operation, what it can answer: the check of a data access, the check of a
key, the key scan, the countdown. -/

namespace Sys2Proof.Machine

/-- Everything the access check can answer: an address above 0xFFF, a font address under
FONT_WRITE_POLICY = fault, or no objection (R56, R59). -/
theorem State.badAddress_cases (s : State) (kind : AccessKind) (n : Nat) :
    (s.badAddress kind n = some (max s.index.toNat 0x1000) ∧ 0 < n ∧ 0xFFF < s.index.toNat + n - 1) ∨
    (s.badAddress kind n = some s.index.toNat ∧ 0 < n ∧ s.index.toNat + n - 1 ≤ 0xFFF ∧
      kind = .write ∧ s.params.fontWritePolicy = .fault ∧ s.index.toNat < 80) ∨
    (s.badAddress kind n = none ∧ (n = 0 ∨ s.index.toNat + n - 1 ≤ 0xFFF) ∧
      (n = 0 ∨ kind = .read ∨ s.params.fontWritePolicy = .write ∨ 80 ≤ s.index.toNat)) := by
  unfold State.badAddress indirectAddr fontSize
  split
  · rename_i h
    exact .inr (.inr ⟨rfl, .inl h, .inl h⟩)
  · split
    · exact .inl ⟨rfl, by omega, by omega⟩
    · split
      · rename_i h
        exact .inr (.inl ⟨rfl, by omega, by omega, h.1, h.2.1, h.2.2⟩)
      · rename_i h
        refine .inr (.inr ⟨rfl, .inr (by omega), .inr ?_⟩)
        cases kind
        · exact .inl rfl
        · cases hp : s.params.fontWritePolicy
          · exact .inr (.inl rfl)
          · refine .inr (.inr ?_)
            by_contra hlt
            exact h ⟨rfl, hp, by omega⟩

/-- An access that stays inside memory, and outside the font where stores there fault, is allowed. -/
theorem State.badAddress_none {s : State} {kind : AccessKind} {n : Nat}
    (h : n = 0 ∨ s.index.toNat + n - 1 ≤ 0xFFF)
    (hf : n = 0 ∨ kind = .read ∨ s.params.fontWritePolicy = .write ∨ 80 ≤ s.index.toNat) :
    s.badAddress kind n = none := by
  unfold State.badAddress indirectAddr fontSize
  rcases h with h | h
  · simp [h]
  · by_cases h0 : n = 0
    · simp [h0]
    · rw [if_neg h0, if_neg (by omega), if_neg]
      rintro ⟨hk, hp, hi⟩
      rcases hf with hf | hf | hf | hf
      · exact h0 hf
      · rw [hk] at hf; cases hf
      · rw [hp] at hf; cases hf
      · omega

/-- An access that leaves memory: the lowest offending address (R56). -/
theorem State.badAddress_above {s : State} (kind : AccessKind) {n : Nat} (hn : 0 < n)
    (h : 0xFFF < s.index.toNat + n - 1) :
    s.badAddress kind n = some (max s.index.toNat 0x1000) := by
  unfold State.badAddress indirectAddr
  rw [if_neg (by omega), if_pos (by omega)]

/-- `withAccess` that goes on: the access was allowed and the state is the given one. -/
theorem withAccess_next {s t u : State} {kind : AccessKind} {n : Nat}
    (h : withAccess s kind n t = .next u) : s.badAddress kind n = none ∧ u = t := by
  unfold withAccess raiseFatal at h
  split at h
  · cases h
  · cases h
    exact ⟨‹_›, rfl⟩

/-- `withAccess` that stops: the condition and its address. -/
theorem withAccess_fault {s t : State} {kind : AccessKind} {n : Nat} {f : Fault}
    (h : withAccess s kind n t = .fault f) :
    ∃ a, s.badAddress kind n = some a ∧ f = .invalidMemoryAccess a := by
  unfold withAccess raiseFatal at h
  split at h
  · cases h
    exact ⟨_, ‹_›, rfl⟩
  · cases h

theorem withAccess_of_none {s : State} {kind : AccessKind} {n : Nat} (t : State)
    (h : s.badAddress kind n = none) : withAccess s kind n t = .next t := by
  simp [withAccess, h]

theorem withAccess_of_some {s : State} {kind : AccessKind} {n a : Nat} (t : State)
    (h : s.badAddress kind n = some a) :
    withAccess s kind n t = .fault (.invalidMemoryAccess a) := by
  simp [withAccess, h, raiseFatal]

theorem withKey_of_le {s : State} {k : Byte} (f : Bool → State) (h : k.toNat ≤ 15) :
    withKey s k f = .next (f (s.keys.getLsbD k.toNat)) := by
  rw [withKey, if_neg (by omega)]

theorem withKey_of_gt {s : State} {k : Byte} (f : Bool → State) (h : 15 < k.toNat) :
    withKey s k f = .fault (.invalidKeyIndex k) := by
  rw [withKey, if_pos h, raiseFatal]

/-- Everything the key scan can answer: no key pressed, or the least pressed one (R243). -/
theorem lowestKey_cases (keys : BitVec 16) :
    (lowestKey keys = none ∧ ∀ k < 16, keys.getLsbD k = false) ∨
    ∃ k < 16, lowestKey keys = some k ∧ keys.getLsbD k = true ∧ ∀ j < k, keys.getLsbD j = false := by
  unfold lowestKey
  cases h : (List.range 16).find? fun k => keys.getLsbD k with
  | none =>
    refine .inl ⟨rfl, fun k hk => ?_⟩
    simpa using List.find?_eq_none.1 h k (List.mem_range.2 hk)
  | some k =>
    obtain ⟨hk, hlt, hmin⟩ := List.find?_range_eq_some.1 h
    exact .inr ⟨k, by simpa using hlt, rfl, hk, fun j hj => by simpa using hmin j hj⟩

/-- One countdown as numbers: `max(t - 1, 0)` (R271). -/
theorem countDown_toNat (t : Byte) : (countDown t).toNat = t.toNat - 1 := by
  unfold countDown
  split
  · rename_i h; simp [h]
  · rename_i h
    have : t.toNat ≠ 0 := fun e => h (BitVec.eq_of_toNat_eq (by simpa using e))
    simp only [BitVec.toNat_sub, BitVec.toNat_ofNat]
    have := t.isLt
    omega

theorem flagByte_eq_zero_or_one (f : Bool) : flagByte f = 0#8 ∨ flagByte f = 1#8 := by
  cases f <;> simp [flagByte]

/-- The register block as values: byte `k` is `V[k]` (R204). -/
theorem State.regBlock_length (s : State) (x : Reg) : (s.regBlock x).length = x.val + 1 := by
  simp [State.regBlock]

theorem State.regBlock_getElem (s : State) (x : Reg) (k : Nat) (h : k < (s.regBlock x).length) :
    (s.regBlock x)[k] =
      s.getV ⟨k, by rw [State.regBlock_length] at h; have := x.isLt; omega⟩ := by
  simp [State.regBlock, State.getV]

end Sys2Proof.Machine
end

