-- ==== Sys2Proof/Laws/Display.lean ====
section
/-! SUPPORT. What drawing does to a framebuffer: flipping a list of distinct cells, and that the cells of
one sprite are distinct (44_display.md R222). -/

namespace Sys2Proof.Machine

/-- Flipping a cell of the framebuffer changes that cell and no other. -/
theorem Screen.cell_flip (fb : Screen) (a c : Nat) (ha : a < 2048) :
    Screen.cell (Screen.flip fb a) c = if c = a then !Screen.cell fb c else Screen.cell fb c := by
  have ha' : a / 64 < 32 := by omega
  unfold Screen.cell Screen.flip
  rw [dif_pos ha']
  by_cases hc : c / 64 < 32
  · rw [dif_pos hc, dif_pos hc, Vector.getElem_set]
    by_cases hr : a / 64 = c / 64
    · rw [if_pos hr, BitVec.getLsbD_xor, BitVec.getLsbD_twoPow]
      by_cases hca : c = a
      · subst hca
        have : c % 64 < 64 := by omega
        simp [this]
      · have : a % 64 ≠ c % 64 := by omega
        simp [hr, hca, this]
    · have : c ≠ a := fun e => hr (by rw [e])
      rw [if_neg hr, if_neg this]
  · have : c ≠ a := by omega
    rw [dif_neg hc, dif_neg hc, if_neg this]

@[simp] theorem Screen.cell_blank (c : Nat) : Screen.cell Screen.blank c = false := by
  simp [Screen.cell, Screen.blank]

/-- No cell outside the framebuffer is set. -/
theorem Screen.cell_of_le (fb : Screen) {c : Nat} (h : 2048 ≤ c) : Screen.cell fb c = false := by
  unfold Screen.cell
  rw [dif_neg (by omega)]

/-- Flipping distinct cells: exactly they change, and a hit is a cell among them that was set. -/
theorem foldl_flip (cells : List Nat) (d : Drawing) (hd : cells.Nodup) (hlt : ∀ c ∈ cells, c < 2048) :
    (∀ c, Screen.cell (cells.foldl Drawing.flip d).fb c =
      (Screen.cell d.fb c ^^ decide (c ∈ cells))) ∧
    ((cells.foldl Drawing.flip d).hit = true ↔
      d.hit = true ∨ ∃ c ∈ cells, Screen.cell d.fb c = true) := by
  induction cells generalizing d with
  | nil => simp
  | cons a cells ih =>
    obtain ⟨ha, hd⟩ := List.nodup_cons.1 hd
    obtain ⟨hlta, hlt⟩ := List.forall_mem_cons.1 hlt
    obtain ⟨h₁, h₂⟩ := ih (d.flip a) hd hlt
    have flip_cell : ∀ c, Screen.cell (d.flip a).fb c =
        if c = a then !Screen.cell d.fb c else Screen.cell d.fb c :=
      fun c => Screen.cell_flip d.fb a c hlta
    constructor
    · intro c
      rw [List.foldl_cons, h₁ c, flip_cell c]
      by_cases hca : c = a
      · subst hca
        simp [ha]
      · simp [hca]
    · rw [List.foldl_cons, h₂]
      have : (∃ c ∈ cells, Screen.cell (d.flip a).fb c = true) ↔
          ∃ c ∈ cells, Screen.cell d.fb c = true :=
        exists_congr fun c => and_congr_right fun hc => by
          rw [flip_cell c, if_neg (fun e : c = a => ha (e ▸ hc))]
      rw [this]
      simp [Drawing.flip, or_assoc]

/-- A cell index is inside the framebuffer. -/
theorem pixelCell_lt (cx cy : Byte) (r c : Nat) : pixelCell cx cy r c < 2048 := by
  unfold pixelCell cellIndex fbWidth fbHeight
  omega

/-- Two bits of one sprite never land on the same cell (R222). -/
theorem pixelCell_inj {cx cy : Byte} {r r' c c' : Nat} (hr : r < 32) (hr' : r' < 32) (hc : c < 64)
    (hc' : c' < 64) (h : pixelCell cx cy r c = pixelCell cx cy r' c') : r = r' ∧ c = c' := by
  unfold pixelCell cellIndex fbWidth fbHeight at h
  omega

theorem mem_rowCells {cx cy : Byte} {r : Nat} {b : Byte} {cell : Nat} :
    cell ∈ rowCells cx cy r b ↔ ∃ c < 8, spriteBit b c = true ∧ cell = pixelCell cx cy r c := by
  simp only [rowCells, List.mem_map, List.mem_filter, List.mem_range]
  exact ⟨fun ⟨c, ⟨hc, hb⟩, e⟩ => ⟨c, hc, hb, e.symm⟩, fun ⟨c, hc, hb, e⟩ => ⟨c, ⟨hc, hb⟩, e.symm⟩⟩

theorem mem_spriteCells {cx cy : Byte} {rows : List Byte} {cell : Nat} :
    cell ∈ spriteCells cx cy rows ↔
      ∃ r, ∃ h : r < rows.length, ∃ c < 8,
        spriteBit rows[r] c = true ∧ cell = pixelCell cx cy r c := by
  simp only [spriteCells, List.mem_flatten, List.mem_map, Prod.exists]
  constructor
  · rintro ⟨l, ⟨b, r, hb, rfl⟩, hl⟩
    have hb := List.mem_zipIdx hb
    obtain ⟨c, hc, hbit, rfl⟩ := mem_rowCells.1 hl
    simp only [Nat.zero_le, Nat.zero_add, Nat.sub_zero, true_and] at hb
    exact ⟨r, hb.1, c, hc, hb.2 ▸ hbit, rfl⟩
  · rintro ⟨r, h, c, hc, hbit, rfl⟩
    refine ⟨_, ⟨rows[r], r, ?_, rfl⟩, mem_rowCells.2 ⟨c, hc, hbit, rfl⟩⟩
    rw [List.mem_zipIdx_iff_getElem?]
    simp [h]

/-- The cells of a sprite of at most 32 rows are distinct. -/
theorem spriteCells_nodup (cx cy : Byte) (rows : List Byte) (h : rows.length ≤ 32) :
    (spriteCells cx cy rows).Nodup := by
  unfold spriteCells
  rw [List.nodup_flatten]
  constructor
  · intro l hl
    obtain ⟨br, -, rfl⟩ := List.mem_map.1 hl
    refine List.Nodup.map_on ?_ (List.nodup_range.filter _)
    intro c hc c' hc' e
    have hc := List.mem_range.1 (List.mem_filter.1 hc).1
    have hc' := List.mem_range.1 (List.mem_filter.1 hc').1
    unfold pixelCell cellIndex fbWidth at e
    omega
  · rw [List.pairwise_map, List.pairwise_iff_getElem]
    intro i j hi hj hij
    simp only [List.length_zipIdx] at hi hj
    intro cell h₁ h₂
    simp only [List.getElem_zipIdx] at h₁ h₂
    obtain ⟨c, hc, -, e⟩ := mem_rowCells.1 h₁
    obtain ⟨c', hc', -, e'⟩ := mem_rowCells.1 h₂
    have := (pixelCell_inj (by omega) (by omega) (by omega) (by omega) (e.symm.trans e')).1
    omega

theorem spriteCells_lt {cx cy : Byte} {rows : List Byte} {cell : Nat}
    (h : cell ∈ spriteCells cx cy rows) : cell < 2048 := by
  obtain ⟨r, -, c, -, -, rfl⟩ := mem_spriteCells.1 h
  exact pixelCell_lt cx cy r c

/-- Everything a drawn sprite does: a cell flips exactly when it lies under a set bit, and the hit is an
erased cell (R222, R224). -/
theorem drawSprite_spec (fb : Screen) (cx cy : Byte) (rows : List Byte)
    (h : rows.length ≤ 32) :
    (∀ c, Screen.cell (drawSprite fb cx cy rows).fb c =
      (Screen.cell fb c ^^ decide (c ∈ spriteCells cx cy rows))) ∧
    ((drawSprite fb cx cy rows).hit = true ↔
      ∃ c ∈ spriteCells cx cy rows, Screen.cell fb c = true) := by
  have := foldl_flip (spriteCells cx cy rows) ⟨fb, false⟩ (spriteCells_nodup cx cy rows h)
    fun c hc => spriteCells_lt hc
  simpa [drawSprite] using this

theorem State.spriteRows_length (s : State) (n : Nat) : (s.spriteRows n).length = n := by
  simp [State.spriteRows]

theorem State.spriteRows_getElem (s : State) (n r : Nat) (h : r < (s.spriteRows n).length) :
    (s.spriteRows n)[r] = s.readMem (s.index.toNat + r) := by
  simp [State.spriteRows, indirectAddr]

/-- The cells a `Dxyn` draws on are those the spec's formula names (R223). -/
theorem mem_spriteCells_iff_covers (s : State) (x y : Reg) (n : Height) (cell : Nat) :
    cell ∈ spriteCells (s.getV x) (s.getV y) (s.spriteRows n.val) ↔ SpriteCovers s x y n cell := by
  rw [mem_spriteCells]
  constructor
  · rintro ⟨r, h, c, hc, hbit, rfl⟩
    rw [State.spriteRows_getElem] at hbit
    rw [State.spriteRows_length] at h
    exact ⟨r, h, c, hc, hbit, rfl⟩
  · rintro ⟨r, h, c, hc, hbit, rfl⟩
    refine ⟨r, by rwa [State.spriteRows_length], c, hc, ?_, rfl⟩
    rw [State.spriteRows_getElem]
    exact hbit

end Sys2Proof.Machine
end

