-- ==== Sys2Proof/Laws/Cycle.lean ====
section
/-! SUPPORT. Everything a step can do (40_cycle_engine.md R112), said once, and one induction over runs. -/

namespace Sys2Proof.Machine

/-- A step that goes on ran a cycle on a state that was reset and whose fetch succeeded; the word was
unknown, or its instruction gave a next state; steps 4 and 5 finish the cycle. -/
theorem step_next {s t : State} (h : step s = .next t) :
    s.lifecycle ≠ .created ∧ s.canFetch = true ∧
    ((decodeWord s.wordAtPc = none ∧ t = s.advance.endCycle (.unknownOpcode s.wordAtPc s.pc)) ∨
      ∃ i u, decodeWord s.wordAtPc = some i ∧ exec i s = .next u ∧ t = u.endCycle .ok) := by
  unfold step cycle fetchWord at h
  split at h
  · cases h
  · rename_i hl
    split at h
    · rename_i f hf
      cases h
    · rename_i w hw
      split at hw
      · rename_i hc
        cases hw
        refine ⟨hl, hc, ?_⟩
        unfold cycleOnWord at h
        split at h
        · rename_i hd
          cases h
          exact .inl ⟨hd, rfl⟩
        · rename_i i hd
          split at h
          · rename_i u hu
            cases h
            exact .inr ⟨i, u, hd, hu, rfl⟩
          · cases h
          · cases h
      · cases hw

/-- A step that raises a fatal condition: the fetch failed, or the fetched instruction raised it. -/
theorem step_fault {s : State} {f : Fault} (h : step s = .fault f) :
    s.lifecycle ≠ .created ∧
    ((s.canFetch = false ∧ f = .invalidFetch s.pc) ∨
      (s.canFetch = true ∧ ∃ i, decodeWord s.wordAtPc = some i ∧ exec i s = .fault f)) := by
  unfold step cycle fetchWord at h
  split at h
  · cases h
  · rename_i hl
    refine ⟨hl, ?_⟩
    cases hc : s.canFetch
    · rw [hc] at h
      cases h
      exact .inl ⟨rfl, rfl⟩
    · rw [hc] at h
      simp only [if_true] at h
      unfold cycleOnWord raiseFatal at h
      split at h
      · cases h
      · rename_i i hd
        split at h
        · cases h
        · rename_i f' hf
          cases h
          exact .inr ⟨rfl, i, hd, hf⟩
        · cases h

/-- The step on a state that fetches an instruction. -/
theorem step_of_fetches {s : State} {i : Instr} (h : s.fetches i) :
    step s = match exec i s with
      | .next t => .next (t.endCycle .ok)
      | .fault f => .fault f
      | .refused r => .refused r := by
  obtain ⟨hl, hc, hd⟩ := h
  cases h : exec i s <;>
    simp only [step, cycle, hl, if_false, fetchWord, hc, if_true, cycleOnWord, hd, raiseFatal, h]

/-- What the next cycle fetches does not depend on KEYS. -/
theorem State.fetches_hostKeys {s : State} {i : Instr} (keys : BitVec 16) :
    (hostKeys keys s).fetches i ↔ s.fetches i := Iff.rfl

/-- A property that holds at the first state and is kept by every key write and by every step holds
along every run. -/
theorem IsRun.invariant {P : State → Prop} {σ : Nat → State} {n : Nat} (hr : IsRun σ n)
    (h0 : P (σ 0)) (hk : ∀ keys s, P s → P (hostKeys keys s))
    (hs : ∀ s t, step s = .next t → P s → P t) : ∀ k ≤ n, P (σ k) := by
  intro k
  induction k with
  | zero => exact fun _ => h0
  | succ k ih =>
    intro hkn
    obtain ⟨keys, h⟩ := hr k (by omega)
    exact hs _ _ h (hk keys _ (ih (by omega)))

end Sys2Proof.Machine
end

