-- ==== Sys2Proof/Laws/Exec.lean ====
section
/-! SUPPORT. What every instruction leaves alone when it gives a next state, said once over all of them:
the part of the frame that does not depend on operands. -/

namespace Sys2Proof.Machine

/-- The frame of `exec`, part by part: the inputs, the parameters and the model's own fields always; the
timers, stack, memory and framebuffer except by the instructions the spec names. -/
theorem exec_next_frame {i : Instr} {s t : State} (h : exec i s = .next t) :
    t.keys = s.keys ∧ t.params = s.params ∧ t.rndIndex = s.rndIndex ∧ t.lifecycle = s.lifecycle ∧
    t.out = s.out ∧
    ((∀ x, i ≠ .ldStVx x) → t.st = s.st) ∧ ((∀ x, i ≠ .ldDtVx x) → t.dt = s.dt) ∧
    ((∀ n, i ≠ .call n) → i ≠ .ret → t.sp = s.sp ∧ t.stack = s.stack) ∧
    ((∀ x, i ≠ .ldBVx x) → (∀ x, i ≠ .ldMemVx x) → t.mem = s.mem) ∧
    (i ≠ .cls → (∀ x y n, i ≠ .drw x y n) → t.fb = s.fb ∧ t.draw = s.draw) := by
  cases i
  case call =>
    simp only [exec, execCall] at h
    split at h <;> cases h
    simp
  case ret =>
    simp only [exec, execRet] at h
    split at h <;> cases h
    simp
  case skp =>
    simp only [exec, execSkp, withKey] at h
    split at h <;> cases h
    simp
  case sknp =>
    simp only [exec, execSknp, withKey] at h
    split at h <;> cases h
    simp
  case drw => obtain ⟨-, rfl⟩ := withAccess_next h; simp
  case ldVxMem => obtain ⟨-, rfl⟩ := withAccess_next h; simp
  case ldBVx => obtain ⟨-, rfl⟩ := withAccess_next h; simp
  case ldMemVx => obtain ⟨-, rfl⟩ := withAccess_next h; simp
  case ldVxK =>
    rcases lowestKey_cases s.keys with ⟨e, -⟩ | ⟨k, -, e, -, -⟩ <;>
      (simp only [exec, execLdVxK, e] at h; cases h; simp)
  all_goals (cases h; simp)

end Sys2Proof.Machine
end

