-- ==== Sys2Proof/Laws/PerInstr.lean ====
section
/-! SUPPORT. Per-instruction laws of the instruction as syntax: MatchesRow, the encoded word matches its
row of 30_encoding.md R75 (`w AND mask = pattern`, R74); InRange, the operands fit their fields (R71). -/

-- One theorem after the other: many small ones at once would each take a thread with a stack of its own.
set_option Elab.async false

namespace Sys2Proof.Laws.MatchesRow

/-- The encoding of the instruction matches its row. -/
def Statement (i : Instr) : Prop := i.row.matchesWord (encodeWord i) = true

theorem cls : Statement .cls := rfl

theorem ret : Statement .ret := rfl

theorem jp (nnn : Addr12) : Statement (.jp nnn) := by
  rw [Statement, Instr.row, encodeWord, OpcodeRow.matchesWord, packNNN_and_op]
  rfl

theorem call (nnn : Addr12) : Statement (.call nnn) := by
  rw [Statement, Instr.row, encodeWord, OpcodeRow.matchesWord, packNNN_and_op]
  rfl

theorem seImm (x : Reg) (nn : Byte) : Statement (.seImm x nn) := by
  rw [Statement, Instr.row, encodeWord, OpcodeRow.matchesWord, packXNN_and_op]
  rfl

theorem sneImm (x : Reg) (nn : Byte) : Statement (.sneImm x nn) := by
  rw [Statement, Instr.row, encodeWord, OpcodeRow.matchesWord, packXNN_and_op]
  rfl

theorem seReg (x y : Reg) : Statement (.seReg x y) := by
  rw [Statement, Instr.row, encodeWord, OpcodeRow.matchesWord, packXYN_and_sel]
  rfl

theorem sneReg (x y : Reg) : Statement (.sneReg x y) := by
  rw [Statement, Instr.row, encodeWord, OpcodeRow.matchesWord, packXYN_and_sel]
  rfl

theorem ldImm (x : Reg) (nn : Byte) : Statement (.ldImm x nn) := by
  rw [Statement, Instr.row, encodeWord, OpcodeRow.matchesWord, packXNN_and_op]
  rfl

theorem addImm (x : Reg) (nn : Byte) : Statement (.addImm x nn) := by
  rw [Statement, Instr.row, encodeWord, OpcodeRow.matchesWord, packXNN_and_op]
  rfl

theorem ldReg (x y : Reg) : Statement (.ldReg x y) := by
  rw [Statement, Instr.row, encodeWord, OpcodeRow.matchesWord, packXYN_and_sel]
  rfl

theorem or (x y : Reg) : Statement (.or x y) := by
  rw [Statement, Instr.row, encodeWord, OpcodeRow.matchesWord, packXYN_and_sel]
  rfl

theorem and (x y : Reg) : Statement (.and x y) := by
  rw [Statement, Instr.row, encodeWord, OpcodeRow.matchesWord, packXYN_and_sel]
  rfl

theorem xor (x y : Reg) : Statement (.xor x y) := by
  rw [Statement, Instr.row, encodeWord, OpcodeRow.matchesWord, packXYN_and_sel]
  rfl

theorem addReg (x y : Reg) : Statement (.addReg x y) := by
  rw [Statement, Instr.row, encodeWord, OpcodeRow.matchesWord, packXYN_and_sel]
  rfl

theorem sub (x y : Reg) : Statement (.sub x y) := by
  rw [Statement, Instr.row, encodeWord, OpcodeRow.matchesWord, packXYN_and_sel]
  rfl

theorem shr (x y : Reg) : Statement (.shr x y) := by
  rw [Statement, Instr.row, encodeWord, OpcodeRow.matchesWord, packXYN_and_sel]
  rfl

theorem subn (x y : Reg) : Statement (.subn x y) := by
  rw [Statement, Instr.row, encodeWord, OpcodeRow.matchesWord, packXYN_and_sel]
  rfl

theorem shl (x y : Reg) : Statement (.shl x y) := by
  rw [Statement, Instr.row, encodeWord, OpcodeRow.matchesWord, packXYN_and_sel]
  rfl

theorem ldI (nnn : Addr12) : Statement (.ldI nnn) := by
  rw [Statement, Instr.row, encodeWord, OpcodeRow.matchesWord, packNNN_and_op]
  rfl

theorem jpV0 (nnn : Addr12) : Statement (.jpV0 nnn) := by
  rw [Statement, Instr.row, encodeWord, OpcodeRow.matchesWord, packNNN_and_op]
  rfl

theorem rnd (x : Reg) (nn : Byte) : Statement (.rnd x nn) := by
  rw [Statement, Instr.row, encodeWord, OpcodeRow.matchesWord, packXNN_and_op]
  rfl

theorem drw (x y : Reg) (n : Height) : Statement (.drw x y n) := by
  rw [Statement, Instr.row, encodeWord, OpcodeRow.matchesWord, packXYN_and_op]
  rfl

theorem skp (x : Reg) : Statement (.skp x) := by
  rw [Statement, Instr.row, encodeWord, OpcodeRow.matchesWord, packXNN_and_sel]
  rfl

theorem sknp (x : Reg) : Statement (.sknp x) := by
  rw [Statement, Instr.row, encodeWord, OpcodeRow.matchesWord, packXNN_and_sel]
  rfl

theorem ldVxDt (x : Reg) : Statement (.ldVxDt x) := by
  rw [Statement, Instr.row, encodeWord, OpcodeRow.matchesWord, packXNN_and_sel]
  rfl

theorem ldVxK (x : Reg) : Statement (.ldVxK x) := by
  rw [Statement, Instr.row, encodeWord, OpcodeRow.matchesWord, packXNN_and_sel]
  rfl

theorem ldDtVx (x : Reg) : Statement (.ldDtVx x) := by
  rw [Statement, Instr.row, encodeWord, OpcodeRow.matchesWord, packXNN_and_sel]
  rfl

theorem ldStVx (x : Reg) : Statement (.ldStVx x) := by
  rw [Statement, Instr.row, encodeWord, OpcodeRow.matchesWord, packXNN_and_sel]
  rfl

theorem addIVx (x : Reg) : Statement (.addIVx x) := by
  rw [Statement, Instr.row, encodeWord, OpcodeRow.matchesWord, packXNN_and_sel]
  rfl

theorem ldFVx (x : Reg) : Statement (.ldFVx x) := by
  rw [Statement, Instr.row, encodeWord, OpcodeRow.matchesWord, packXNN_and_sel]
  rfl

theorem ldBVx (x : Reg) : Statement (.ldBVx x) := by
  rw [Statement, Instr.row, encodeWord, OpcodeRow.matchesWord, packXNN_and_sel]
  rfl

theorem ldMemVx (x : Reg) : Statement (.ldMemVx x) := by
  rw [Statement, Instr.row, encodeWord, OpcodeRow.matchesWord, packXNN_and_sel]
  rfl

theorem ldVxMem (x : Reg) : Statement (.ldVxMem x) := by
  rw [Statement, Instr.row, encodeWord, OpcodeRow.matchesWord, packXNN_and_sel]
  rfl

end Sys2Proof.Laws.MatchesRow

namespace Sys2Proof.Laws.InRange

/-- Every operand of the instruction fits its field. -/
def Statement (i : Instr) : Prop := i.wf = true

theorem cls : Statement .cls := rfl

theorem ret : Statement .ret := rfl

theorem jp (nnn : Addr12) : Statement (.jp nnn) := by
  simp [Statement, Instr.wf, Instr.operands, Operand.inRange]
  exact nnn.isLt

theorem call (nnn : Addr12) : Statement (.call nnn) := by
  simp [Statement, Instr.wf, Instr.operands, Operand.inRange]
  exact nnn.isLt

theorem seImm (x : Reg) (nn : Byte) : Statement (.seImm x nn) := by
  simp [Statement, Instr.wf, Instr.operands, Operand.inRange]
  exact nn.isLt

theorem sneImm (x : Reg) (nn : Byte) : Statement (.sneImm x nn) := by
  simp [Statement, Instr.wf, Instr.operands, Operand.inRange]
  exact nn.isLt

theorem seReg (x y : Reg) : Statement (.seReg x y) := by
  simp [Statement, Instr.wf, Instr.operands, Operand.inRange]

theorem sneReg (x y : Reg) : Statement (.sneReg x y) := by
  simp [Statement, Instr.wf, Instr.operands, Operand.inRange]

theorem ldImm (x : Reg) (nn : Byte) : Statement (.ldImm x nn) := by
  simp [Statement, Instr.wf, Instr.operands, Operand.inRange]
  exact nn.isLt

theorem addImm (x : Reg) (nn : Byte) : Statement (.addImm x nn) := by
  simp [Statement, Instr.wf, Instr.operands, Operand.inRange]
  exact nn.isLt

theorem ldReg (x y : Reg) : Statement (.ldReg x y) := by
  simp [Statement, Instr.wf, Instr.operands, Operand.inRange]

theorem or (x y : Reg) : Statement (.or x y) := by
  simp [Statement, Instr.wf, Instr.operands, Operand.inRange]

theorem and (x y : Reg) : Statement (.and x y) := by
  simp [Statement, Instr.wf, Instr.operands, Operand.inRange]

theorem xor (x y : Reg) : Statement (.xor x y) := by
  simp [Statement, Instr.wf, Instr.operands, Operand.inRange]

theorem addReg (x y : Reg) : Statement (.addReg x y) := by
  simp [Statement, Instr.wf, Instr.operands, Operand.inRange]

theorem sub (x y : Reg) : Statement (.sub x y) := by
  simp [Statement, Instr.wf, Instr.operands, Operand.inRange]

theorem shr (x y : Reg) : Statement (.shr x y) := by
  simp [Statement, Instr.wf, Instr.operands, Operand.inRange]

theorem subn (x y : Reg) : Statement (.subn x y) := by
  simp [Statement, Instr.wf, Instr.operands, Operand.inRange]

theorem shl (x y : Reg) : Statement (.shl x y) := by
  simp [Statement, Instr.wf, Instr.operands, Operand.inRange]

theorem ldI (nnn : Addr12) : Statement (.ldI nnn) := by
  simp [Statement, Instr.wf, Instr.operands, Operand.inRange]
  exact nnn.isLt

theorem jpV0 (nnn : Addr12) : Statement (.jpV0 nnn) := by
  simp [Statement, Instr.wf, Instr.operands, Operand.inRange]
  exact nnn.isLt

theorem rnd (x : Reg) (nn : Byte) : Statement (.rnd x nn) := by
  simp [Statement, Instr.wf, Instr.operands, Operand.inRange]
  exact nn.isLt

theorem drw (x y : Reg) (n : Height) : Statement (.drw x y n) := by
  simp [Statement, Instr.wf, Instr.operands, Operand.inRange]

theorem skp (x : Reg) : Statement (.skp x) := by
  simp [Statement, Instr.wf, Instr.operands, Operand.inRange]

theorem sknp (x : Reg) : Statement (.sknp x) := by
  simp [Statement, Instr.wf, Instr.operands, Operand.inRange]

theorem ldVxDt (x : Reg) : Statement (.ldVxDt x) := by
  simp [Statement, Instr.wf, Instr.operands, Operand.inRange]

theorem ldVxK (x : Reg) : Statement (.ldVxK x) := by
  simp [Statement, Instr.wf, Instr.operands, Operand.inRange]

theorem ldDtVx (x : Reg) : Statement (.ldDtVx x) := by
  simp [Statement, Instr.wf, Instr.operands, Operand.inRange]

theorem ldStVx (x : Reg) : Statement (.ldStVx x) := by
  simp [Statement, Instr.wf, Instr.operands, Operand.inRange]

theorem addIVx (x : Reg) : Statement (.addIVx x) := by
  simp [Statement, Instr.wf, Instr.operands, Operand.inRange]

theorem ldFVx (x : Reg) : Statement (.ldFVx x) := by
  simp [Statement, Instr.wf, Instr.operands, Operand.inRange]

theorem ldBVx (x : Reg) : Statement (.ldBVx x) := by
  simp [Statement, Instr.wf, Instr.operands, Operand.inRange]

theorem ldMemVx (x : Reg) : Statement (.ldMemVx x) := by
  simp [Statement, Instr.wf, Instr.operands, Operand.inRange]

theorem ldVxMem (x : Reg) : Statement (.ldVxMem x) := by
  simp [Statement, Instr.wf, Instr.operands, Operand.inRange]

end Sys2Proof.Laws.InRange
end

