-- ==== Sys2Proof/Tests/Slice0.lean ====
section
/-! SUPPORT. Tests: expected values come from the spec's own vectors (95_test_vectors.md; the row is named
in each comment) or by hand from the rule named; and for every statement with hypotheses a witness that
meets them. -/

-- One theorem after the other: many small ones at once would each take a thread with a stack of its own.
set_option Elab.async false

namespace Sys2Proof.Tests

open Sys2Proof.Machine

/-! ### Small states -/

/-- The reset state with this word at PC = 0x200. -/
def place (w : Nat) : State := State.reset.withFetchWord 16 w

/-- The same with register values. -/
def placeV (w : Nat) (vs : List (Reg × Byte)) : State := vs.foldl (fun s rv => s.setV rv.1 rv.2) (place w)

/-- The same with I as well. -/
def placeI (w : Nat) (i : Word) (vs : List (Reg × Byte)) : State := (placeV w vs).setIndex i

/-- One row of the screen replaced. -/
def screenOf (s : State) (row : Fin 32) (w : BitVec 64) : State := s.setScreen (s.fb.set row.val w)

/-- One register after one step. -/
def vAfter (s : State) (r : Reg) : Option Byte := (nextOf (step s)).map fun t => t.getV r

/-- PC after one step. -/
def pcAfter (s : State) : Option Word := (nextOf (step s)).map fun t => t.pc

/-- Any reading of the state after one step. -/
def after {α : Type} (s : State) (f : State → α) : Option α := (nextOf (step s)).map f

/-- A machine whose stores into the font fault (R59). -/
def faultPolicy (s : State) : State := { s with params := { s.params with fontWritePolicy := .fault } }

/-! ### Well-formedness: each check refuses an ill-formed term -/

theorem test_wf_refuses_register_16 : (Operand.reg 16).inRange = false := by decide
theorem test_wf_refuses_height_16 : (Operand.height 16).inRange = false := by decide
theorem test_wf_refuses_immediate_256 : (Operand.imm8 256).inRange = false := by decide
theorem test_wf_refuses_address_4096 : (Operand.addr 0x1000).inRange = false := by decide
/-- S12, S13: 3584 bytes fit and 3585 do not. -/
theorem test_rom_limit : romFits (List.replicate 3584 0#8) = true ∧
    romFits (List.replicate 3585 0#8) = false := by
  unfold romFits
  rw [List.length_replicate, List.length_replicate]
  decide

/-! ### Decoding: words written out from the table of R75 -/

theorem test_decode_family0 : decodeWord 0b0000000011100000#16 = some .cls ∧
    decodeWord 0b0000000011101110#16 = some .ret ∧ decodeWord 0x0000#16 = none ∧
    decodeWord 0x01E0#16 = none := by decide
theorem test_decode_jumps : decodeWord 0b0001001000110100#16 = some (.jp 0x234#12) ∧
    decodeWord 0b0010001000001100#16 = some (.call 0x20C#12) ∧
    decodeWord 0b1011001100000000#16 = some (.jpV0 0x300#12) := by decide
theorem test_decode_skips : decodeWord 0b0011001100101010#16 = some (.seImm 3 0x2A#8) ∧
    decodeWord 0b0100001100101010#16 = some (.sneImm 3 0x2A#8) ∧
    decodeWord 0b0101000100100000#16 = some (.seReg 1 2) ∧
    decodeWord 0b1001000100100000#16 = some (.sneReg 1 2) ∧ decodeWord 0x5121#16 = none := by decide
theorem test_decode_immediates : decodeWord 0b0110101001000010#16 = some (.ldImm 10 0x42#8) ∧
    decodeWord 0b0111001000100000#16 = some (.addImm 2 0x20#8) ∧
    decodeWord 0b1010001011110000#16 = some (.ldI 0x2F0#12) ∧
    decodeWord 0b1100001100001111#16 = some (.rnd 3 0x0F#8) := by decide
theorem test_decode_family8_logic : decodeWord 0b1000000100100000#16 = some (.ldReg 1 2) ∧
    decodeWord 0b1000000100100001#16 = some (.or 1 2) ∧
    decodeWord 0b1000000100100010#16 = some (.and 1 2) ∧
    decodeWord 0b1000000100100011#16 = some (.xor 1 2) ∧ decodeWord 0x8128#16 = none := by decide
theorem test_decode_family8_flags : decodeWord 0b1000000100100100#16 = some (.addReg 1 2) ∧
    decodeWord 0b1000000100100101#16 = some (.sub 1 2) ∧
    decodeWord 0b1000000100100110#16 = some (.shr 1 2) ∧
    decodeWord 0b1000000100100111#16 = some (.subn 1 2) ∧
    decodeWord 0b1000000100101110#16 = some (.shl 1 2) := by decide
theorem test_decode_draw : decodeWord 0b1101000100101111#16 = some (.drw 1 2 15) := by decide
theorem test_decode_keys : decodeWord 0b1110000110011110#16 = some (.skp 1) ∧
    decodeWord 0b1110000110100001#16 = some (.sknp 1) ∧ decodeWord 0xE1A2#16 = none := by decide
theorem test_decode_timers : decodeWord 0b1111001100000111#16 = some (.ldVxDt 3) ∧
    decodeWord 0b1111001100001010#16 = some (.ldVxK 3) ∧
    decodeWord 0b1111001100010101#16 = some (.ldDtVx 3) ∧
    decodeWord 0b1111001100011000#16 = some (.ldStVx 3) := by decide
theorem test_decode_memory : decodeWord 0b1111010100011110#16 = some (.addIVx 5) ∧
    decodeWord 0b1111010100101001#16 = some (.ldFVx 5) ∧
    decodeWord 0b1111010100110011#16 = some (.ldBVx 5) ∧
    decodeWord 0b1111010101010101#16 = some (.ldMemVx 5) ∧
    decodeWord 0b1111010101100101#16 = some (.ldVxMem 5) := by decide
/-- The byte decoder is big-endian and leaves the rest (R52, R81). -/
theorem test_decode_bytes : decode [0x6A#8, 0x42#8, 0x99#8] = .ok (.ldImm 10 0x42#8, [0x99#8]) ∧
    decode [0x6A#8] = .error (.truncated 1) ∧
    decode [0x51#8, 0x21#8] = .error (.unknownOpcode 0x5121#16) := by decide
theorem test_decodeTableWord : decodeTableWord 16 0x220C = some (.call 0x20C#12) := by decide
/-- The encodings of P2's program words. -/
theorem test_encode : encodeWord (.call 0x20C#12) = 0x220C#16 ∧ encodeWord (.ldReg 2 15) = 0x82F0#16 ∧
    encodeWord (.addReg 0 1) = 0x8014#16 ∧ encode .ret = [0x00#8, 0xEE#8] ∧
    encodeWord (.drw 0 1 1) = 0xD011#16 := by decide

/-- R75: no two rows of the table match one word: they differ in a bit both masks keep. -/
theorem test_opcode_rows_disjoint :
    opcodeTable.Pairwise (fun a b => a.pattern &&& b.mask ≠ b.pattern &&& a.mask) := by decide

/-! ### Cycle engine (95_test_vectors.md 2.1) -/

/-- V-C1: the first cycle after reset reports the reset's mark. -/
theorem test_cycle_reports_reset_mark :
    after (place 0x6001) (fun t => (t.getV 0, t.pc, t.out.changed, t.draw)) =
      some (0x01#8, 0x202#16, true, false) := by decide
/-- V-C3: an unknown word. -/
theorem test_cycle_unknown_word :
    after ((place 0x0000).setDt 5#8) (fun t => (t.out.status, t.pc, t.dt)) =
      some (.unknownOpcode 0x0000#16 0x200#16, 0x202#16, 4#8) := by decide
/-- V-C4: the last word of memory is fetched. -/
theorem test_fetch_at_FFE :
    pcAfter ((State.reset.setPc 0xFFE#16).withFetchWord 16 0x1200) = some 0x200#16 := by decide
/-- V-C5. -/
theorem test_fetch_at_FFF :
    faultOf (step (State.reset.setPc 0xFFF#16)) = some (.invalidFetch 0xFFF#16) := by decide
/-- V-C9: an odd PC is fetched normally. -/
theorem test_fetch_odd :
    after ((State.reset.setPc 0x201#16).withFetchWord 16 0x6A42) (fun t => (t.getV 10, t.pc)) =
      some (0x42#8, 0x203#16) := by decide
/-- R305: no cycle on a state never reset. -/
theorem test_created_state_is_refused :
    nextOf (step { State.reset with lifecycle := .created }) = none := by decide

/-! ### Control flow and stack (2.2) -/

/-- V-F1, V-F2. -/
theorem test_jp : pcAfter (place 0x1234) = some 0x234#16 ∧
    pcAfter { place 0x1234 with params := { Params.default with jumpMask := .m0F00 } } =
      some 0x200#16 := by decide
/-- R133: STACK[0] holds the address of the call, as in V-F4. -/
theorem test_call :
    after (place 0x220C) (fun t => (t.stackEntry 0, t.sp.val, t.pc)) =
      some (0x200#16, 1, 0x20C#16) := by decide
/-- V-F5. -/
theorem test_call_overflow :
    faultOf (step { place 0x2400 with sp := 16 }) = some (.stackOverflow 0x200#16) := by decide
/-- V-F6: the popped entry keeps its content. -/
theorem test_ret :
    after ((place 0x00EE).push 0x204#16 (by decide)) (fun t => (t.sp.val, t.pc, t.stackEntry 0)) =
      some (0, 0x206#16, 0x204#16) := by decide
/-- V-F7. -/
theorem test_ret_underflow : faultOf (step (place 0x00EE)) = some (.stackUnderflow 0x200#16) := by decide
/-- V-F9, V-F10. -/
theorem test_seImm : pcAfter (placeV 0x332A [(3, 0x2A#8)]) = some 0x204#16 ∧
    pcAfter (placeV 0x332A [(3, 0x2B#8)]) = some 0x202#16 := by decide
/-- V-F11, V-F12. -/
theorem test_sneImm : pcAfter (placeV 0x432A [(3, 0x2A#8)]) = some 0x202#16 ∧
    pcAfter (place 0x432A) = some 0x204#16 := by decide
/-- V-F13, and its opposite. -/
theorem test_seReg : pcAfter (placeV 0x5010 [(0, 5#8), (1, 5#8)]) = some 0x204#16 ∧
    pcAfter (placeV 0x5010 [(0, 4#8), (1, 5#8)]) = some 0x202#16 := by decide
/-- V-F15, V-F16. -/
theorem test_sneReg : pcAfter (placeV 0x9010 [(0, 4#8), (1, 5#8)]) = some 0x204#16 ∧
    pcAfter (placeV 0x9440 [(4, 7#8)]) = some 0x202#16 := by decide
/-- V-F17: a skip at the top of memory. -/
theorem test_skip_over_the_top :
    pcAfter ((State.reset.setPc 0xFFE#16).withFetchWord 16 0x3000) = some 0x1002#16 := by decide
/-- V-F18, V-F19. -/
theorem test_jpV0 : pcAfter (placeV 0xB300 [(0, 0x10#8)]) = some 0x310#16 ∧
    pcAfter (placeV 0xBFFF [(0, 0xFF#8)]) = some 0x10FE#16 := by decide

/-! ### ALU (2.3) -/

/-- V-A1. -/
theorem test_ldImm : vAfter (place 0x6FAB) 15 = some 0xAB#8 := by decide
/-- V-A2, V-A3. -/
theorem test_addImm : after (placeV 0x7001 [(0, 0xFF#8), (15, 7#8)]) (fun t => (t.getV 0, t.getV 15)) =
      some (0x00#8, 0x07#8) ∧
    vAfter (placeV 0x7FFF [(15, 1#8)]) 15 = some 0x00#8 := by decide
/-- V-A4. -/
theorem test_ldReg : vAfter (placeV 0x8010 [(1, 0x33#8)]) 0 = some 0x33#8 := by decide
/-- V-A5. -/
theorem test_or : after (placeV 0x8011 [(0, 0xF0#8), (1, 0x0F#8), (15, 0x55#8)])
    (fun t => (t.getV 0, t.getV 15)) = some (0xFF#8, 0x55#8) := by decide
/-- V-A6. -/
theorem test_and : after (placeV 0x8012 [(0, 0xF3#8), (1, 0x3F#8), (15, 0x55#8)])
    (fun t => (t.getV 0, t.getV 15)) = some (0x33#8, 0x55#8) := by decide
/-- V-A7. -/
theorem test_xor : after (placeV 0x8013 [(0, 0xFF#8), (1, 0x0F#8), (15, 0x55#8)])
    (fun t => (t.getV 0, t.getV 15)) = some (0xF0#8, 0x55#8) := by decide
/-- V-A10, S2. -/
theorem test_addReg : after (placeV 0x8014 [(0, 0x7F#8), (1, 0x80#8)])
      (fun t => (t.getV 0, t.getV 15)) = some (0xFF#8, 0#8) ∧
    after (placeV 0x8014 [(0, 0xFF#8), (1, 0x01#8)]) (fun t => (t.getV 0, t.getV 15)) =
      some (0x00#8, 1#8) := by decide
/-- V-A12, V-A13: VF as destination, VF as source. -/
theorem test_addReg_VF : vAfter (placeV 0x8F14 [(15, 0xFF#8), (1, 0x01#8)]) 15 = some 1#8 ∧
    after (placeV 0x80F4 [(0, 0x01#8), (15, 0xFF#8)]) (fun t => (t.getV 0, t.getV 15)) =
      some (0x00#8, 1#8) := by decide
/-- S5, V-A15. -/
theorem test_sub : after (placeV 0x8015 [(0, 3#8), (1, 5#8)]) (fun t => (t.getV 0, t.getV 15)) =
      some (0xFE#8, 0#8) ∧
    after (placeV 0x8015 [(0, 7#8), (1, 7#8)]) (fun t => (t.getV 0, t.getV 15)) =
      some (0#8, 1#8) := by decide
/-- V-A19, V-A22. -/
theorem test_shr : after (placeV 0x8476 [(4, 5#8), (7, 0xAA#8)])
      (fun t => (t.getV 4, t.getV 15, t.getV 7)) = some (2#8, 1#8, 0xAA#8) ∧
    vAfter (placeV 0x8F06 [(15, 2#8)]) 15 = some 0#8 := by decide
/-- V-A23, V-A24. -/
theorem test_subn : after (placeV 0x8017 [(0, 3#8), (1, 5#8)]) (fun t => (t.getV 0, t.getV 15)) =
      some (2#8, 1#8) ∧
    after (placeV 0x8017 [(0, 5#8), (1, 3#8)]) (fun t => (t.getV 0, t.getV 15)) =
      some (0xFE#8, 0#8) := by decide
/-- V-A26, V-A27. -/
theorem test_shl : after (placeV 0x840E [(4, 0x81#8)]) (fun t => (t.getV 4, t.getV 15)) =
      some (2#8, 1#8) ∧
    after (placeV 0x840E [(4, 0x40#8)]) (fun t => (t.getV 4, t.getV 15)) =
      some (0x80#8, 0#8) := by decide
/-- V-A30: a mask of zero gives zero whatever the random byte is. -/
theorem test_rnd_masked_to_zero : vAfter (placeV 0xC300 [(3, 9#8)]) 3 = some 0#8 := by
  show some (Config.randomByte 0 &&& 0#8) = some 0#8
  simp

/-! ### Index and memory (2.4) -/

/-- V-I1. -/
theorem test_ldI : after (place 0xA2F0) (fun t => t.index) = some 0x2F0#16 := by decide
/-- V-I2, V-I7. -/
theorem test_addIVx : after (placeI 0xF21E 0xFFE#16 [(2, 3#8)]) (fun t => (t.index, t.getV 15)) =
      some (0x1001#16, 1#8) ∧
    after (placeI 0xF01E 0xFFF0#16 [(0, 0xFF#8)]) (fun t => (t.index, t.getV 15)) =
      some (0x00EF#16, 1#8) := by decide
/-- V-I4: the sum 0xFFF does not exceed 0xFFF. -/
theorem test_addIVx_at_limit : after (placeI 0xF01E 0xFFF#16 []) (fun t => (t.index, t.getV 15)) =
    some (0xFFF#16, 0#8) := by decide
/-- V-I8, V-I10. -/
theorem test_ldFVx : after (placeV 0xFA29 [(10, 0x0B#8)]) (fun t => t.index) = some 0x37#16 ∧
    after (placeV 0xFA29 [(10, 0xFF#8)]) (fun t => t.index) = some 0x4FB#16 := by decide
/-- V-I15, at the top of memory. -/
theorem test_ldBVx : after (placeI 0xF533 0xFFD#16 [(5, 0xFF#8)])
    (fun t => (t.readMem 0xFFD, t.readMem 0xFFE, t.readMem 0xFFF, t.index)) =
      some (2#8, 5#8, 5#8, 0xFFD#16) := by decide
/-- V-I16, V-I17. -/
theorem test_ldBVx_faults :
    faultOf (step (placeI 0xF533 0xFFE#16 [])) = some (.invalidMemoryAccess 0x1000) ∧
    faultOf (step (faultPolicy (placeI 0xF033 0x04E#16 []))) =
      some (.invalidMemoryAccess 0x04E) := by decide
/-- V-I19. -/
theorem test_ldMemVx : after (placeI 0xF255 0x400#16 [(0, 0x11#8), (1, 0x22#8), (2, 0x33#8), (3, 0x44#8)])
    (fun t => ([0x3FF, 0x400, 0x401, 0x402, 0x403].map t.readMem, t.index)) =
      some ([0#8, 0x11#8, 0x22#8, 0x33#8, 0#8], 0x403#16) := by decide
/-- V-I22, and I = 0xFF0 as in V-I21. -/
theorem test_ldMemVx_limit :
    faultOf (step (placeI 0xFF55 0xFF1#16 [])) = some (.invalidMemoryAccess 0x1000) ∧
    after (placeI 0xFF55 0xFF0#16 [(15, 0x0F#8)]) (fun t => (t.readMem 0xFFF, t.index)) =
      some (0x0F#8, 0x1000#16) := by decide
/-- V-I23. -/
theorem test_ldVxMem :
    after ((placeI 0xF165 0x400#16 [(2, 9#8)]).storeBytes 0x400 [0x11#8, 0x22#8, 0x33#8])
      (fun t => (t.getV 0, t.getV 1, t.getV 2, t.index)) =
      some (0x11#8, 0x22#8, 9#8, 0x402#16) := by decide
/-- V-I25, V-I26: reads of the font are allowed under either policy. -/
theorem test_ldVxMem_limits :
    faultOf (step (placeI 0xF065 0x1000#16 [])) = some (.invalidMemoryAccess 0x1000) ∧
    after (faultPolicy (place 0xF465))
      (fun t => ([0, 1, 2, 3, 4].map t.getV, t.index)) =
      some ([0xF0#8, 0x90#8, 0x90#8, 0x90#8, 0xF0#8], 5#16) := by decide
/-- R59, canonical form: a store of the reset content over a changed font byte leaves no entry. -/
theorem test_memory_canonical :
    ((State.reset.storeBytes 0x001 [0x77#8]).storeBytes 0x001 [0x90#8]).mem = [] ∧
    (State.reset.storeBytes 0x001 [0x77#8]).mem = [(1, 0x77#8)] := by decide

/-! ### Display (2.5) -/

/-- V-D2 and V-D1: the screen is cleared, VF is untouched. -/
theorem test_cls :
    after (screenOf (placeV 0x00E0 [(15, 7#8)]) 0 5#64) (fun t => (t.fb, t.getV 15, t.out.changed)) =
      some (Vector.replicate 32 0#64, 7#8, true) := by decide
/-- S7: column wrap, no clipping: the eight cells and no other. -/
theorem test_drw_wraps_columns :
    after ((placeI 0xD011 0x300#16 [(0, 63#8)]).storeBytes 0x300 [0xFF#8])
      (fun t => (t.fb, t.getV 15)) =
      some ((Vector.replicate 32 0#64).set 0 0x800000000000007F#64, 0#8) := by decide
/-- V-D3: the row wraps modulo 32. -/
theorem test_drw_wraps_rows :
    after ((placeI 0xD012 0x300#16 [(1, 0x1F#8)]).storeBytes 0x300 [0x80#8, 0x80#8])
      (fun t => t.fb) = some (((Vector.replicate 32 0#64).set 31 1#64).set 0 1#64) := by decide
/-- V-D6: a collision; V-D7: none, though a neighbour is set. -/
theorem test_drw_collision :
    after (screenOf ((placeI 0xD011 0x300#16 []).storeBytes 0x300 [0xC0#8]) 0 1#64)
      (fun t => (t.fb, t.getV 15)) = some ((Vector.replicate 32 0#64).set 0 2#64, 1#8) ∧
    after (screenOf ((placeI 0xD011 0x300#16 []).storeBytes 0x300 [0xC0#8]) 0 4#64)
      (fun t => (t.fb, t.getV 15)) = some ((Vector.replicate 32 0#64).set 0 7#64, 0#8) := by decide
/-- V-D8, V-D9. -/
theorem test_drw_no_rows_and_fault :
    after (screenOf (placeV 0xD010 [(15, 9#8)]) 0 1#64) (fun t => (t.fb, t.getV 15, t.out.changed)) =
      some ((Vector.replicate 32 0#64).set 0 1#64, 0#8, true) ∧
    faultOf (step (placeI 0xD012 0xFFF#16 [])) = some (.invalidMemoryAccess 0x1000) := by decide
/-- V-D11: VF is read as the x coordinate before it is written. -/
theorem test_drw_reads_VF_first :
    after ((placeI 0xDF11 0x300#16 [(15, 5#8)]).storeBytes 0x300 [0x80#8])
      (fun t => (t.fb, t.getV 15)) = some ((Vector.replicate 32 0#64).set 0 0x20#64, 0#8) := by decide
/-- V-D12: font glyph 0, rows 1111 / 1001 / 1001 / 1001 / 1111 of columns 0..3. -/
theorem test_drw_glyph0 :
    after (place 0xD015) (fun t => t.fb) = some
      (((((((Vector.replicate 32 0#64).set 0 15#64).set 1 9#64).set 2 9#64).set 3 9#64).set 4 15#64)) := by decide

/-! ### Keys and timers (2.6) -/

/-- V-K1, V-K2. -/
theorem test_skp : pcAfter (hostKeys 0x0020#16 (placeV 0xE19E [(1, 5#8)])) = some 0x204#16 ∧
    pcAfter (placeV 0xE19E [(1, 5#8)]) = some 0x202#16 := by decide
/-- V-K4, V-K5. -/
theorem test_sknp : pcAfter (placeV 0xE1A1 [(1, 5#8)]) = some 0x204#16 ∧
    pcAfter (hostKeys 0x0020#16 (placeV 0xE1A1 [(1, 5#8)])) = some 0x202#16 := by decide
/-- V-K3, V-K6. -/
theorem test_key_index :
    faultOf (step (placeV 0xE19E [(1, 0x10#8)])) = some (.invalidKeyIndex 0x10#8) ∧
    faultOf (step (placeV 0xE1A1 [(1, 0xFF#8)])) = some (.invalidKeyIndex 0xFF#8) := by decide
/-- V-K7. -/
theorem test_ldVxDt : after ((place 0xF307).setDt 0x10#8) (fun t => (t.getV 3, t.dt)) =
    some (0x10#8, 0x0F#8) := by decide
/-- V-K9: the wait leaves PC, and the timers tick. -/
theorem test_ldVxK_waits :
    after (((placeV 0xF30A [(3, 0x77#8)]).setDt 5#8).setSt 1#8)
      (fun t => (t.pc, t.getV 3, t.dt, t.st, t.out.beep)) =
      some (0x200#16, 0x77#8, 4#8, 0#8, true) := by decide
/-- V-K10: the lowest index wins. -/
theorem test_ldVxK_lowest : after (hostKeys 0x0220#16 (place 0xF30A)) (fun t => (t.getV 3, t.pc)) =
    some (5#8, 0x202#16) := by decide
/-- V-K12, V-K13. -/
theorem test_ldDtVx : after (placeV 0xF015 [(0, 3#8)]) (fun t => t.dt) = some 2#8 ∧
    after (place 0xF015) (fun t => t.dt) = some 0#8 := by decide
/-- V-K15, S9. -/
theorem test_ldStVx : after (placeV 0xF018 [(0, 2#8)]) (fun t => (t.st, t.out.beep)) =
      some (1#8, false) ∧
    after (placeV 0xF018 [(0, 1#8)]) (fun t => (t.st, t.out.beep)) = some (0#8, true) := by decide

/-! ### Reset, load, host (2.7) -/

/-- V-R2. -/
theorem test_load_two_bytes :
    (hostLoad [0x12#8, 0x00#8] State.reset).toOption.map (fun r => (r.1.readMem 0x200, r.2, r.1.pc)) =
      some (0x12#8, .ok, 0x200#16) := by decide
/-- D23: a load on a state that was never reset is refused. -/
theorem test_load_before_reset_is_refused :
    (hostLoad [0x12#8] { State.reset with lifecycle := .created }).toOption = none := by decide
/-- D23: a second load is refused. -/
theorem test_second_load_is_refused :
    ((hostLoad [0x12#8] State.reset).toOption.bind fun r => (hostLoad [0x12#8] r.1).toOption) = none := by
  decide
/-- V-C7: the host sees the fatal status, and the state is as it was. -/
theorem test_host_sees_fatal_status :
    (hostCycle (place 0x00EE)).toOption.map (fun t => (t.out.status.code, t.out.changed, t.draw, t.pc)) =
      some (3, false, true, 0x200#16) := by decide

/-! ### Witnesses: for each statement with hypotheses, states and operands that meet them together -/

/-- A result that goes on, with a property of its next state. -/
theorem next_with {r : Result} {p : State → Bool} (h : (nextOf r).any p = true) :
    ∃ t, r = .next t ∧ p t = true := by
  cases r with
  | next t => exact ⟨t, rfl, h⟩
  | fault f => exact absurd h (by simp [nextOf])
  | refused r => exact absurd h (by simp [nextOf])

/-- A result that ends in a fatal condition. -/
theorem fault_with {r : Result} {f : Fault} (h : faultOf r = some f) : r = .fault f := by
  cases r with
  | next t => exact absurd h (by simp [faultOf])
  | fault f' => exact congrArg _ (Option.some.inj h)
  | refused r => exact absurd h (by simp [faultOf])

/-- A state fetches one instruction only. -/
theorem not_fetches {s : State} {i j : Instr} (h : decodeWord s.wordAtPc = some i) (hij : i ≠ j) :
    ¬ s.fetches j := fun hj => hij (Option.some.inj (h.symm.trans hj.2.2))

/-- The run that begins in a state, with KEYS left as they are. -/
def runOf (s : State) : Nat → State
  | 0 => s
  | k + 1 => (nextOf (step (runOf s k))).getD s

theorem isRun_runOf {s : State} {n : Nat} (h : ∀ k < n, (nextOf (step (runOf s k))).isSome = true) :
    IsRun (runOf s) n := by
  intro k hk
  obtain ⟨t, ht, -⟩ := next_with (p := fun _ => true) (r := step (runOf s k)) (by
    have := h k hk
    cases hn : nextOf (step (runOf s k)) with
    | none => simp [hn] at this
    | some t => rfl)
  refine ⟨(runOf s k).keys, ?_⟩
  show step (runOf s k) = _
  rw [ht, runOf, ht]
  rfl

/-- `2204` at 0x200, and `00EE` at its target. -/
def callThenReturn : State := (State.reset.storeBytes 0x204 [0x00#8, 0xEE#8]).withFetchWord 16 0x2204

theorem witness_DecodeOfEncode : (Instr.drw 15 15 15).wf = true := by decide
theorem witness_EncodeOfDecode : decodeWord 0xDFFF#16 = some (.drw 15 15 15) := by decide
/-- The clause of a next state, at the last fetchable PC, and the clause of a fatal condition. -/
theorem witness_StepRunsTheDecodedInstruction :
    (let s := (State.reset.setPc 0xFFE#16).withFetchWord 16 0x6FAB
     s.lifecycle ≠ .created ∧ s.pc.toNat ≤ 0xFFE ∧
      decode [s.readMem s.pc.toNat, s.readMem (s.pc.toNat + 1)] = .ok (.ldImm 15 0xAB#8, []) ∧
      ∃ u, exec (.ldImm 15 0xAB#8) s = .next u) ∧
    (let s := place 0x00EE
     s.lifecycle ≠ .created ∧ s.pc.toNat ≤ 0xFFE ∧
      decode [s.readMem s.pc.toNat, s.readMem (s.pc.toNat + 1)] = .ok (.ret, []) ∧
      exec .ret s = .fault (.stackUnderflow 0x200#16)) :=
  ⟨⟨by decide, by decide, by decide, _, rfl⟩, ⟨by decide, by decide, by decide, rfl⟩⟩
/-- Both clauses, with timers at 0, 1 and 255. -/
theorem witness_TimersCountDownOncePerCycle :
    ((place 0xF015).fetches (.ldDtVx 0) ∧ ∃ u, exec (.ldDtVx 0) (place 0xF015) = .next u ∧
      (decide (u.dt.toNat = 0) && decide (u.st.toNat = 0)) = true) ∧
    (let s := (placeV 0xF015 [(0, 0xFF#8)]).setSt 1#8
     s.fetches (.ldDtVx 0) ∧ ∃ u, exec (.ldDtVx 0) s = .next u ∧
      (decide (0 < u.dt.toNat) && decide (0 < u.st.toNat)) = true) ∧
    (let s := ((place 0x0000).setDt 0xFF#8).setSt 0#8
     s.lifecycle ≠ .created ∧ s.pc.toNat ≤ 0xFFE ∧ decodeWord s.wordAtPc = none ∧
      0 < s.dt.toNat ∧ s.st.toNat = 0) :=
  ⟨⟨⟨by decide, by decide, by decide⟩, next_with (by decide)⟩,
    ⟨⟨by decide, by decide, by decide⟩, next_with (by decide)⟩, by decide⟩
theorem witness_UnknownWordCycleCompletes :
    let s := (State.reset.setPc 0xFFE#16).withFetchWord 16 0x5121
    s.lifecycle ≠ .created ∧ s.pc.toNat ≤ 0xFFE ∧ decodeWord s.wordAtPc = none := by decide
theorem witness_FetchOrInvalidFetch :
    (State.reset.setPc 0xFFE#16).pc.toNat + 1 ≤ 0xFFF ∧ 0xFFF < (State.reset.setPc 0xFFF#16).pc.toNat + 1 ∧
    (State.reset.setPc 0xFFF#16).lifecycle ≠ .created := by decide
theorem witness_CycleBeforeResetIsRefused :
    ({ State.reset with lifecycle := .created } : State).lifecycle = .created := rfl
/-- One for each line of the taxonomy, at the boundary of its range. -/
theorem witness_ExecStopsExactlyAsListed :
    exec (.call 0x400#12) { State.reset with sp := 16 } = .fault (.stackOverflow 0x200#16) ∧
    exec .ret State.reset = .fault (.stackUnderflow 0x200#16) ∧
    exec (.skp 1) (State.reset.setV 1 0x10#8) = .fault (.invalidKeyIndex 0x10#8) ∧
    exec (.sknp 1) (State.reset.setV 1 0x10#8) = .fault (.invalidKeyIndex 0x10#8) ∧
    exec (.drw 0 0 1) (State.reset.setIndex 0x1000#16) = .fault (.invalidMemoryAccess 0x1000) ∧
    exec (.ldVxMem 1) (State.reset.setIndex 0xFFF#16) = .fault (.invalidMemoryAccess 0x1000) ∧
    exec (.ldBVx 0) (State.reset.setIndex 0xFFE#16) = .fault (.invalidMemoryAccess 0x1000) ∧
    exec (.ldMemVx 0) (State.reset.setIndex 0xFFFF#16) = .fault (.invalidMemoryAccess 0xFFFF) ∧
    exec (.ldMemVx 0) ((faultPolicy State.reset).setIndex 0x04F#16) =
      .fault (.invalidMemoryAccess 0x04F) :=
  ⟨fault_with (by decide), fault_with (by decide), fault_with (by decide), fault_with (by decide),
    fault_with (by decide), fault_with (by decide), fault_with (by decide), fault_with (by decide),
    fault_with (by decide)⟩
theorem witness_FatalCycleCommitsNothing : step (place 0x00EE) = .fault (.stackUnderflow 0x200#16) :=
  fault_with (by decide)
theorem witness_RetPopsAndReturns :
    ({ State.reset with sp := 1 } : State).sp.val = (0 : Fin 16).val + 1 ∧
    ({ State.reset with sp := 16 } : State).sp.val = (15 : Fin 16).val + 1 ∧
    State.reset.sp.val = 0 := by decide
theorem witness_JpSetsPc : State.reset.params.jumpMask = .m0FFF ∧
    ({ State.reset with params := { Params.default with jumpMask := .m0F00 } } : State).params.jumpMask =
      .m0F00 := by decide
theorem witness_CallPushesItsOwnAddress :
    State.reset.sp.val = (0 : Fin 16).val ∧
    ({ State.reset with sp := 15 } : State).sp.val = (15 : Fin 16).val ∧
    ({ State.reset with sp := 16 } : State).sp.val = 16 := by decide
theorem witness_SkipOnImmediate : State.reset.getV 0 = 0x00#8 ∧ State.reset.getV 15 ≠ 0xFF#8 := by decide
theorem witness_SkipOnRegisters : State.reset.getV 0 = State.reset.getV 15 ∧
    (State.reset.setV 0 1#8).getV 0 ≠ (State.reset.setV 0 1#8).getV 15 := by decide
theorem witness_CallReturnRoundTrip :
    IsRun (runOf callThenReturn) 2 ∧ (∃ nnn, (runOf callThenReturn 0).fetches (.call nnn)) ∧
    (runOf callThenReturn 1).fetches .ret ∧
    (runOf callThenReturn 1).sp.val = (runOf callThenReturn 0).sp.val + 1 ∧
    ∀ j, 1 ≤ j → j ≤ 1 → (runOf callThenReturn 0).sp.val < (runOf callThenReturn j).sp.val := by
  refine ⟨isRun_runOf (by decide), ⟨0x204#12, by decide, by decide, by decide⟩,
    ⟨by decide, by decide, by decide⟩, by decide, ?_⟩
  intro j h₁ h₂
  obtain rfl : j = 1 := by omega
  decide
theorem witness_OnlyCallAndRetTouchTheStack :
    (∃ t, step (place 0x6001) = .next t) ∧ (∀ nnn, ¬ (place 0x6001).fetches (.call nnn)) ∧
    ¬ (place 0x6001).fetches .ret :=
  ⟨⟨_, rfl⟩, fun _ => not_fetches (i := .ldImm 0 1#8) (by decide) (by simp),
    not_fetches (i := .ldImm 0 1#8) (by decide) (by decide)⟩
theorem witness_flag_results : (3 : Reg) ≠ regF := by decide
/-- Both clauses: a flag instruction on VF itself, and an instruction that names VF. -/
theorem witness_VfIsAFlagOnlyOfTheSeven :
    (∃ t, exec (.addReg 15 1) State.reset = .next t) ∧
    ∃ t, exec (.ldImm 15 0xAB#8) State.reset = .next t ∧
      decide (t.getV regF ≠ State.reset.getV regF) = true :=
  ⟨⟨_, rfl⟩, next_with (by decide)⟩
theorem witness_RegistersWrittenAsTabled :
    ∃ t, exec (.ldImm 15 0xAB#8) State.reset = .next t ∧
      decide (t.getV 15 ≠ State.reset.getV 15) = true := next_with (by decide)
/-- The store is allowed up to I = 0xFFD, and from 0x050 on under the fault policy; each condition at its
boundary, and an I in the font never gives a store past the top. -/
theorem witness_DecimalDigitsAreStored :
    (let s := State.reset.setIndex 0xFFD#16
     s.index.toNat + 2 ≤ 0xFFF ∧ (s.params.fontWritePolicy = .write ∨ 0x050 ≤ s.index.toNat)) ∧
    (let s := (faultPolicy State.reset).setIndex 0x050#16
     s.index.toNat + 2 ≤ 0xFFF ∧ (s.params.fontWritePolicy = .write ∨ 0x050 ≤ s.index.toNat)) ∧
    0xFFF < (State.reset.setIndex 0xFFE#16).index.toNat + 2 ∧
    (let s := (faultPolicy State.reset).setIndex 0x04F#16
     s.params.fontWritePolicy = .fault ∧ s.index.toNat < 0x050) := by decide
theorem witness_RegistersAreStored :
    (let s := State.reset.setIndex 0xFF0#16
     s.index.toNat + (15 : Reg).val ≤ 0xFFF ∧
      (s.params.fontWritePolicy = .write ∨ 0x050 ≤ s.index.toNat)) ∧
    0xFFF < (State.reset.setIndex 0xFF1#16).index.toNat + (15 : Reg).val ∧
    (let s := (faultPolicy State.reset).setIndex 0x04F#16
     s.params.fontWritePolicy = .fault ∧ s.index.toNat < 0x050) := by decide
theorem witness_RegistersAreLoaded :
    (State.reset.setIndex 0xFF0#16).index.toNat + (15 : Reg).val ≤ 0xFFF ∧
    0xFFF < (State.reset.setIndex 0x1000#16).index.toNat + (0 : Reg).val := by decide
/-- A store, the same state with I set back, and the load from it. -/
theorem witness_StoredRegistersLoadBack :
    ∃ s t w u : State, exec (.ldMemVx 2) s = .next t ∧ w.index = s.index ∧
      (∀ a, s.index.toNat ≤ a → a ≤ s.index.toNat + (2 : Reg).val → w.readMem a = t.readMem a) ∧
      exec (.ldVxMem 2) w = .next u := by
  obtain ⟨t, ht, -⟩ := next_with (r := exec (.ldMemVx 2) (placeI 0xF255 0x400#16 [(2, 9#8)]))
    (p := fun _ => true) (by decide)
  refine ⟨_, t, t.setIndex 0x400#16, _, ht, rfl, fun _ _ _ => rfl, rfl⟩
/-- `F155` at 0x200 with I = 0x202 writes the word the next cycle fetches. -/
theorem witness_FetchSeesStoredBytes_Fx55 :
    ∃ s t w : State, s.fetches (.ldMemVx 1) ∧ step s = .next t ∧
      w.pc.toNat = s.index.toNat + (0 : Reg).val ∧ (1 : Reg).val = (0 : Reg).val + 1 ∧
      (1 : Reg).val ≤ (1 : Reg).val ∧ ∀ a, w.readMem a = t.readMem a := by
  obtain ⟨t, ht, hp⟩ := next_with (r := step (placeI 0xF155 0x202#16 [(0, 0x6A#8)]))
    (p := fun t => decide (t.pc = 0x202#16)) (by decide)
  have hp : t.pc = 0x202#16 := of_decide_eq_true hp
  exact ⟨_, t, t, ⟨by decide, by decide, by decide⟩, ht, by rw [hp]; decide, by decide, by decide,
    fun _ => rfl⟩
/-- `F033` at 0x200 writes the word the next cycle fetches: its hundreds and tens with I = 0x202, its tens
and ones with I = 0x201. -/
theorem witness_FetchSeesStoredBytes_Fx33 :
    (∃ s t w : State, s.fetches (.ldBVx 0) ∧ step s = .next t ∧ (∀ a, w.readMem a = t.readMem a) ∧
      w.pc.toNat = s.index.toNat) ∧
    ∃ s t w : State, s.fetches (.ldBVx 0) ∧ step s = .next t ∧ (∀ a, w.readMem a = t.readMem a) ∧
      w.pc.toNat = s.index.toNat + 1 := by
  obtain ⟨t, ht, hp⟩ := next_with (r := step (placeI 0xF033 0x202#16 [(0, 0xFE#8)]))
    (p := fun t => decide (t.pc = 0x202#16)) (by decide)
  obtain ⟨t', ht', hp'⟩ := next_with (r := step (placeI 0xF033 0x201#16 [(0, 0xFE#8)]))
    (p := fun t => decide (t.pc = 0x202#16)) (by decide)
  have hp : t.pc = 0x202#16 := of_decide_eq_true hp
  have hp' : t'.pc = 0x202#16 := of_decide_eq_true hp'
  exact ⟨⟨_, t, t, ⟨by decide, by decide, by decide⟩, ht, fun _ => rfl, by rw [hp]; decide⟩,
    ⟨_, t', t', ⟨by decide, by decide, by decide⟩, ht', fun _ => rfl, by rw [hp']; decide⟩⟩
theorem witness_OnlyStoresWriteMemory :
    (∃ t, step (place 0x6001) = .next t) ∧ (∀ x, ¬ (place 0x6001).fetches (.ldBVx x)) ∧
    ∀ x, ¬ (place 0x6001).fetches (.ldMemVx x) :=
  ⟨⟨_, rfl⟩, fun _ => not_fetches (i := .ldImm 0 1#8) (by decide) (by simp),
    fun _ => not_fetches (i := .ldImm 0 1#8) (by decide) (by simp)⟩
/-- A run whose first cycle stores just above the font. -/
theorem witness_FontIsNeverOverwrittenUnderFault :
    let s := faultPolicy (placeI 0xF055 0x050#16 [(0, 7#8)])
    IsRun (runOf s) 2 ∧ (runOf s 0).params.fontWritePolicy = .fault :=
  ⟨isRun_runOf (by decide), by decide⟩
/-- A draw of the highest row the memory allows, the draw of no rows at an I above it, and one too far. -/
theorem witness_DrawFlipsTheCoveredCells :
    (State.reset.setIndex 0xFF1#16).index.toNat + (15 : Height).val - 1 ≤ 0xFFF ∧
    (0 : Height).val = 0 ∧ 0 < (15 : Height).val ∧
    0xFFF < (State.reset.setIndex 0xFF2#16).index.toNat + (15 : Height).val - 1 := by decide
theorem witness_DrawingTwiceRestoresTheScreen :
    (0 : Reg) ≠ regF ∧ (1 : Reg) ≠ regF ∧ ∃ s t u : State,
      exec (.drw 0 1 5) s = .next t ∧ exec (.drw 0 1 5) t = .next u :=
  ⟨by decide, by decide, State.reset, _, _, rfl, rfl⟩
theorem witness_OnlyClsAndDrwChangeTheScreen :
    (∃ t, step (place 0x6001) = .next t) ∧ ¬ (place 0x6001).fetches .cls ∧
    ∀ x y n, ¬ (place 0x6001).fetches (.drw x y n) :=
  ⟨⟨_, rfl⟩, not_fetches (i := .ldImm 0 1#8) (by decide) (by decide),
    fun _ _ _ => not_fetches (i := .ldImm 0 1#8) (by decide) (by simp)⟩
theorem witness_ChangedIsReportedAndCleared : ∃ t, step (place 0x00E0) = .next t := ⟨_, rfl⟩
theorem witness_SkipOnKey :
    (let s := hostKeys 0x8000#16 (State.reset.setV 1 15#8)
     (s.getV 1).toNat ≤ 15 ∧ s.keys.getLsbD (s.getV 1).toNat = true) ∧
    (State.reset.getV 1).toNat ≤ 15 ∧ State.reset.keys.getLsbD (State.reset.getV 1).toNat = false ∧
    15 < ((State.reset.setV 1 16#8).getV 1).toNat := by decide
theorem witness_DelayTimerIsRead : (place 0xF307).fetches (.ldVxDt 3) :=
  ⟨by decide, by decide, by decide⟩
/-- No key; the lowest key; the highest key alone. -/
theorem witness_KeyWait :
    ((place 0xF30A).fetches (.ldVxK 3) ∧ ∀ k < 16, (place 0xF30A).keys.getLsbD k = false) ∧
    (hostKeys 0xFFFF#16 (place 0xF30A)).keys.getLsbD 0 = true ∧
    ((hostKeys 0x8000#16 (place 0xF30A)).keys.getLsbD 15 = true ∧
      ∀ j < 15, (hostKeys 0x8000#16 (place 0xF30A)).keys.getLsbD j = false) :=
  ⟨⟨⟨by decide, by decide, by decide⟩, by decide⟩, by decide, by decide⟩
theorem witness_TimersAreSet : (place 0xF015).fetches (.ldDtVx 0) ∧ (place 0xFF18).fetches (.ldStVx 15) :=
  ⟨⟨by decide, by decide, by decide⟩, ⟨by decide, by decide, by decide⟩⟩
/-- A run of three cycles from ST = 2 and DT = 2 in which no cycle writes a timer. -/
theorem witness_SoundTimerBeepsExactlyOnce :
    let s := (State.reset.setSt 2#8).setDt 2#8
    IsRun (runOf s) 3 ∧ ∀ k < 3, ∀ x, ¬ (runOf s k).fetches (.ldStVx x) := by
  refine ⟨isRun_runOf (by decide), fun k hk x h => ?_⟩
  have := (show ∀ k < 3, decodeWord (runOf ((State.reset.setSt 2#8).setDt 2#8) k).wordAtPc = none by
    decide) k hk
  exact absurd (this.symm.trans h.2.2) (by simp)
theorem witness_DelayTimerCountsCycles :
    let s := (State.reset.setSt 2#8).setDt 2#8
    IsRun (runOf s) 3 ∧ ∀ k < 3, ∀ x, ¬ (runOf s k).fetches (.ldDtVx x) := by
  refine ⟨isRun_runOf (by decide), fun k hk x h => ?_⟩
  have := (show ∀ k < 3, decodeWord (runOf ((State.reset.setSt 2#8).setDt 2#8) k).wordAtPc = none by
    decide) k hk
  exact absurd (this.symm.trans h.2.2) (by simp)
theorem witness_EngineNeverWritesKeysOrParameters : ∃ t, step (place 0xF30A) = .next t := ⟨_, rfl⟩
theorem witness_OnlyKeyInstructionsReadKeys :
    ∀ x, Instr.cls ≠ .skp x ∧ Instr.cls ≠ .sknp x ∧ Instr.cls ≠ .ldVxK x := by simp
theorem witness_OnlyRndReadsTheRandomByte : ∀ x nn, Instr.cls ≠ .rnd x nn := by simp
/-- The longest image that fits, and one byte more. -/
theorem witness_LoadCopiesOrRejects : State.reset.lifecycle = .fresh ∧
    (List.replicate 3584 0#8).length ≤ 3584 ∧ 3584 < (List.replicate 3585 0#8).length := by
  refine ⟨rfl, List.length_replicate.le, ?_⟩
  rw [List.length_replicate]
  decide
theorem witness_LoadNeedsAFreshReset : (∃ t, step (place 0x6001) = .next t) ∧
    (∃ t, hostLoad [0x12#8] State.reset = .ok (t, .ok)) ∧
    ({ State.reset with lifecycle := .created } : State).lifecycle = .created :=
  ⟨⟨_, rfl⟩, ⟨_, rfl⟩, rfl⟩
theorem witness_InvariantHoldsAfterResetAndLoad :
    ∃ t st, hostLoad [0x12#8, 0x00#8] (hostReset State.reset) = .ok (t, st) := ⟨_, _, rfl⟩
theorem witness_StepKeepsTheInvariant :
    (placeI 0xF055 0x001#16 [(0, 7#8)]).Inv ∧ ∃ t, step (placeI 0xF055 0x001#16 [(0, 7#8)]) = .next t :=
  ⟨by decide, _, rfl⟩
theorem witness_SelfLoopOnlyTicks : (place 0x1200).AtSelfLoop :=
  ⟨0x200#12, ⟨by decide, by decide, by decide⟩, by decide⟩

end Sys2Proof.Tests
end

section
/-! PROOFS. The statements about the Machine State (10_state.md): what every step keeps, which registers
an instruction writes, what may read KEYS, and the values of a reset. The rules about `exec` and the
state come first; the statements are settled from them. -/

namespace Sys2Proof.Machine

/-! ### Instructions that may stop: what a next state says -/

/-- `withKey` that goes on: the index was a key, and the state is the one given for that key. -/
theorem withKey_next {s t : State} {k : Byte} {f : Bool → State} (h : withKey s k f = .next t) :
    k.toNat ≤ 15 ∧ t = f (s.keys.getLsbD k.toNat) := by
  unfold withKey raiseFatal at h
  split at h <;> cases h
  exact ⟨by omega, rfl⟩

theorem exec_skp_next {x : Reg} {s t : State} (h : exec (.skp x) s = .next t) :
    (s.getV x).toNat ≤ 15 ∧ t = s.skipIf (s.keys.getLsbD (s.getV x).toNat) := by
  simp only [exec, execSkp] at h
  exact withKey_next h

theorem exec_sknp_next {x : Reg} {s t : State} (h : exec (.sknp x) s = .next t) :
    (s.getV x).toNat ≤ 15 ∧ t = s.skipIf (!s.keys.getLsbD (s.getV x).toNat) := by
  simp only [exec, execSknp] at h
  exact withKey_next h

theorem exec_call_next {nnn : Addr12} {s t : State} (h : exec (.call nnn) s = .next t) :
    ∃ hsp : s.sp.val < 16, t = (s.push s.pc hsp).setPc (zext16 nnn) := by
  simp only [exec, execCall] at h
  split at h <;> cases h
  exact ⟨_, rfl⟩

theorem exec_ret_next {s t : State} (h : exec .ret s = .next t) :
    ∃ hsp : 0 < s.sp.val, t = s.pop.setPc (s.topOfStack hsp + 2#16) := by
  simp only [exec, execRet] at h
  split at h <;> cases h
  exact ⟨_, rfl⟩

/-- `Fx0A` waits, or the lowest pressed key goes to `V[x]` (R243). -/
theorem exec_ldVxK_next {x : Reg} {s t : State} (h : exec (.ldVxK x) s = .next t) :
    lowestKey s.keys = none ∧ t = s ∨
      ∃ k, lowestKey s.keys = some k ∧ t = (s.setV x (BitVec.ofNat 8 k)).advance := by
  simp only [exec, execLdVxK] at h
  split at h <;> cases h
  · exact .inl ⟨‹_›, rfl⟩
  · exact .inr ⟨_, ‹_›, rfl⟩

theorem keys_ne_zero_of_lowestKey {keys : BitVec 16} {k : Nat} (h : lowestKey keys = some k) :
    keys ≠ 0#16 := by
  rintro rfl
  have hnone : lowestKey 0#16 = none := by decide
  rw [hnone] at h
  cases h

/-! ### PC -/

/-- What an instruction that gives a next state can leave in PC: the default advance, a skip, a wait, or
the target of the transfer that it is (R107, R108, R26). -/
inductive PcAfter (s : State) : Instr → Word → Prop where
  | advance (i : Instr) : PcAfter s i (s.pc + 2#16)
  | skip (i : Instr) : PcAfter s i (s.pc + 4#16)
  | wait (x : Reg) : PcAfter s (.ldVxK x) s.pc
  | jp (nnn : Addr12) : PcAfter s (.jp nnn) (jumpTarget s.params nnn)
  | call (nnn : Addr12) : PcAfter s (.call nnn) (zext16 nnn)
  | jpV0 (nnn : Addr12) : PcAfter s (.jpV0 nnn) (indexedTarget nnn (s.getV reg0))
  | ret (hsp : 0 < s.sp.val) : PcAfter s .ret (s.topOfStack hsp + 2#16)

theorem PcAfter.skipIf (s : State) (i : Instr) (c : Bool) : PcAfter s i (s.skipIf c).pc := by
  cases c
  · exact .advance i
  · exact .skip i

theorem exec_next_pc {i : Instr} {s t : State} (h : exec i s = .next t) : PcAfter s i t.pc := by
  cases i
  case jp nnn => cases h; exact .jp nnn
  case jpV0 nnn => cases h; exact .jpV0 nnn
  case call nnn => obtain ⟨_, rfl⟩ := exec_call_next h; exact .call nnn
  case ret => obtain ⟨hsp, rfl⟩ := exec_ret_next h; exact .ret hsp
  case seImm | sneImm | seReg | sneReg => cases h; exact .skipIf s _ _
  case skp => obtain ⟨-, rfl⟩ := exec_skp_next h; exact .skipIf s _ _
  case sknp => obtain ⟨-, rfl⟩ := exec_sknp_next h; exact .skipIf s _ _
  case ldVxK x =>
    obtain ⟨-, rfl⟩ | ⟨k, -, rfl⟩ := exec_ldVxK_next h
    · exact .wait x
    · exact .advance _
  case drw | ldBVx | ldMemVx | ldVxMem => obtain ⟨-, rfl⟩ := withAccess_next h; exact .advance _
  all_goals cases h; exact .advance _

theorem zext16_le (nnn : Addr12) : (zext16 nnn).toNat ≤ 0xFFF := by
  unfold zext16
  bv_omega

theorem jumpTarget_le (p : Params) (nnn : Addr12) : (jumpTarget p nnn).toNat ≤ 0xFFF := by
  unfold jumpTarget
  rw [BitVec.toNat_and]
  exact Nat.and_le_left.trans (zext16_le nnn)

theorem indexedTarget_le (nnn : Addr12) (v0 : Byte) : (indexedTarget nnn v0).toNat ≤ 0x10FE := by
  unfold indexedTarget zext16 zextByte
  bv_omega

/-- The bound of R26: from a fetch inside memory and return addresses of such fetches, no instruction
takes PC beyond 0x10FE, the greatest target of `Bnnn`. -/
theorem PcAfter.le {s : State} {i : Instr} {w : Word} (h : PcAfter s i w) (hpc : s.pc.toNat ≤ 0xFFE)
    (hstack : ∀ k, (s.stackEntry k).toNat ≤ 0xFFE) : w.toNat ≤ 0x10FE := by
  cases h with
  | advance | skip => bv_omega
  | wait => omega
  | jp nnn => exact (jumpTarget_le s.params nnn).trans (by decide)
  | call nnn => exact (zext16_le nnn).trans (by decide)
  | jpV0 nnn => exact indexedTarget_le nnn _
  | ret hsp =>
    have htop : (s.topOfStack hsp).toNat ≤ 0xFFE := hstack _
    bv_omega

/-! ### Stack and memory -/

theorem State.stackEntry_congr {s t : State} (h : t.stack = s.stack) (k : Fin 16) :
    t.stackEntry k = s.stackEntry k := by
  unfold State.stackEntry
  rw [h]

/-- Only `2nnn` and `00EE` write SP or the stack (R27). -/
theorem exec_next_stack {i : Instr} {s t : State} (h : exec i s = .next t)
    (hcall : ∀ nnn, i ≠ .call nnn) (hret : i ≠ .ret) :
    t.sp = s.sp ∧ ∀ k, t.stackEntry k = s.stackEntry k := by
  obtain ⟨-, -, -, -, -, -, -, hstack, -, -⟩ := exec_next_frame h
  obtain ⟨hsp, hst⟩ := hstack hcall hret
  exact ⟨hsp, State.stackEntry_congr hst⟩

/-- The only word that an instruction enters into the stack is PC (R133). -/
theorem exec_next_stackEntry {i : Instr} {s t : State} (h : exec i s = .next t) (k : Fin 16) :
    t.stackEntry k = s.stackEntry k ∨ t.stackEntry k = s.pc := by
  cases i
  case call nnn =>
    obtain ⟨hsp, rfl⟩ := exec_call_next h
    rw [State.setPc_stackEntry, State.push_stackEntry]
    split
    · exact .inr rfl
    · exact .inl rfl
  case ret =>
    obtain ⟨_, rfl⟩ := exec_ret_next h
    exact .inl rfl
  all_goals exact .inl ((exec_next_stack h (by simp) (by simp)).2 k)

theorem State.wf_storeBytes {s : State} (a : Nat) (bs : List Byte) (h : Memory.wf s.params s.mem) :
    Memory.wf s.params (s.storeBytes a bs).mem :=
  Memory.wf_writeBytes bs a h

/-- Every instruction keeps memory in canonical form, the two that store included. -/
theorem exec_next_wf {i : Instr} {s t : State} (h : exec i s = .next t)
    (hwf : Memory.wf s.params s.mem) : Memory.wf t.params t.mem := by
  obtain ⟨-, hparams, -, -, -, -, -, -, hmem, -⟩ := exec_next_frame h
  rw [hparams]
  cases i
  case ldBVx | ldMemVx =>
    obtain ⟨-, rfl⟩ := withAccess_next h
    exact State.wf_storeBytes _ _ hwf
  all_goals rwa [hmem (by simp) (by simp)]

/-! ### The invariant -/

/-- Steps 4 and 5 of a cycle touch nothing that the invariant speaks of. -/
theorem State.inv_endCycle {s : State} (status : Status) : (s.endCycle status).Inv ↔ s.Inv := Iff.rfl

theorem State.inv_advance {s : State} (h : s.Inv) (hfetch : s.pc.toNat ≤ 0xFFE) : s.advance.Inv := by
  obtain ⟨hwf, -, hstack⟩ := h
  exact ⟨hwf, (PcAfter.advance .cls).le hfetch hstack, hstack⟩

theorem exec_next_inv {i : Instr} {s t : State} (h : exec i s = .next t) (hinv : s.Inv)
    (hfetch : s.pc.toNat ≤ 0xFFE) : t.Inv := by
  obtain ⟨hwf, -, hstack⟩ := hinv
  refine ⟨exec_next_wf h hwf, (exec_next_pc h).le hfetch hstack, fun k => ?_⟩
  obtain e | e := exec_next_stackEntry h k
  · exact e ▸ hstack k
  · exact e ▸ hfetch

/-- Settles O57: a step fetched at PC at most 0xFFE, so the PC that a call pushes is an address of a
fetch, and no target lies beyond 0x10FE; every store keeps the canonical form. -/
theorem stepKeepsTheInvariant : Obligations.StepKeepsTheInvariant := by
  intro s t hinv h
  obtain ⟨-, hcan, hstep⟩ := step_next h
  have hfetch : s.pc.toNat ≤ 0xFFE := of_decide_eq_true hcan
  obtain ⟨-, rfl⟩ | ⟨i, u, -, hexec, rfl⟩ := hstep
  · exact (State.inv_endCycle _).2 (State.inv_advance hinv hfetch)
  · exact (State.inv_endCycle _).2 (exec_next_inv hexec hinv hfetch)

/-! ### The frame of a step -/

/-- Settles O20: the instruction of the cycle is neither of the two, so by the frame of `exec` it leaves
SP and the stack; an unknown word, the timers and the report leave them always. -/
theorem onlyCallAndRetTouchTheStack : Obligations.OnlyCallAndRetTouchTheStack := by
  intro s t h hcall hret
  obtain ⟨hl, hcan, ⟨-, rfl⟩ | ⟨i, u, hdec, hexec, rfl⟩⟩ := step_next h
  · exact ⟨rfl, fun _ => rfl⟩
  · have hi : s.fetches i := ⟨hl, hcan, hdec⟩
    obtain ⟨hsp, hst⟩ :=
      exec_next_stack hexec (fun nnn e => hcall nnn (e ▸ hi)) (fun e => hret (e ▸ hi))
    exact ⟨hsp, hst⟩

/-- Settles O50: by the frame of `exec`; the other steps of a cycle write neither. -/
theorem engineNeverWritesKeysOrParameters : Obligations.EngineNeverWritesKeysOrParameters := by
  intro s t h
  obtain ⟨-, -, ⟨-, rfl⟩ | ⟨i, u, -, hexec, rfl⟩⟩ := step_next h
  · exact ⟨rfl, rfl⟩
  · obtain ⟨hkeys, hparams, -⟩ := exec_next_frame hexec
    exact ⟨hkeys, hparams⟩

/-! ### General registers -/

theorem State.eq_of_setV_getV_ne {s : State} {x r : Reg} {b : Byte}
    (h : (s.setV x b).getV r ≠ s.getV r) : r = x :=
  by_contra fun hne => h (s.setV_getV_of_ne b hne)

theorem State.eq_or_eq_of_setResultAndFlag_getV_ne {s : State} {x r : Reg} {b : Byte} {f : Bool}
    (h : (s.setResultAndFlag x b f).getV r ≠ s.getV r) : r = x ∨ r = regF := by
  by_contra hne
  obtain ⟨hx, hF⟩ := not_or.1 hne
  exact h (by rw [State.setResultAndFlag_getV, if_neg hF, if_neg hx])

theorem State.le_of_setRegBlock_getV_ne {s : State} {x r : Reg} {f : Nat → Byte}
    (h : (s.setRegBlock x f).getV r ≠ s.getV r) : r ≤ x :=
  by_contra fun hgt => h (by rw [State.setRegBlock_getV, if_neg hgt])

/-- Settles O28: instruction by instruction, the register that changed is the one that `setV` names, the
result or the flag of a flag instruction, or one of the block of `Fx65`. -/
theorem registersWrittenAsTabled : Obligations.RegistersWrittenAsTabled := by
  intro i s t r h hr
  cases i
  case ldImm | addImm | rnd | ldReg | or | and | xor | ldVxDt =>
    cases h
    obtain rfl := State.eq_of_setV_getV_ne hr
    simp
  case ldVxK =>
    obtain ⟨-, rfl⟩ | ⟨k, hk, rfl⟩ := exec_ldVxK_next h
    · exact absurd rfl hr
    · obtain rfl := State.eq_of_setV_getV_ne hr
      simp [keys_ne_zero_of_lowestKey hk]
  case addReg | sub | shr | subn | shl =>
    cases h
    simpa using State.eq_or_eq_of_setResultAndFlag_getV_ne hr
  case drw =>
    obtain ⟨-, rfl⟩ := withAccess_next h
    obtain rfl := State.eq_of_setV_getV_ne hr
    simp
  case addIVx =>
    cases h
    obtain rfl := State.eq_of_setV_getV_ne hr
    simp
  case ldVxMem =>
    obtain ⟨-, rfl⟩ := withAccess_next h
    simpa using State.le_of_setRegBlock_getV_ne hr
  case call => obtain ⟨_, rfl⟩ := exec_call_next h; exact absurd rfl hr
  case ret => obtain ⟨_, rfl⟩ := exec_ret_next h; exact absurd rfl hr
  case skp => obtain ⟨-, rfl⟩ := exec_skp_next h; exact absurd rfl hr
  case sknp => obtain ⟨-, rfl⟩ := exec_sknp_next h; exact absurd rfl hr
  case ldBVx | ldMemVx => obtain ⟨-, rfl⟩ := withAccess_next h; exact absurd rfl hr
  all_goals cases h; exact absurd rfl hr

/-- A flag written last is in VF as 0 or 1, whatever PC then becomes (R22). -/
theorem State.vf_setFlag_advance (s : State) (f : Bool) :
    (s.setV regF (flagByte f)).advance.getV regF = 0#8 ∨
      (s.setV regF (flagByte f)).advance.getV regF = 1#8 := by
  simpa using flagByte_eq_zero_or_one f

/-- Settles O27: a flag instruction writes VF last; every other instruction writes only its destination,
so the second clause is the table of R23 read at register F. -/
theorem vfIsAFlagOnlyOfTheSeven : Obligations.VfIsAFlagOnlyOfTheSeven := by
  constructor
  · rintro i s t h (⟨x, y, hi⟩ | ⟨x, y, n, rfl⟩ | ⟨x, rfl⟩)
    · obtain rfl | rfl | rfl | rfl | rfl := hi <;> cases h <;> exact State.vf_setFlag_advance _ _
    · obtain ⟨-, rfl⟩ := withAccess_next h
      exact State.vf_setFlag_advance _ _
    · cases h; exact State.vf_setFlag_advance _ _
  · intro i s t h hr
    obtain hnn | hy | hdt | ⟨hk, -⟩ | ⟨x, y, -, hflag⟩ | ⟨-, hdrw | hadd⟩ | ⟨x, rfl, hx⟩ :=
      registersWrittenAsTabled i s t regF h hr
    · exact .inr (.inl hnn)
    · exact .inr (.inr (.inl hy))
    · exact .inr (.inr (.inr (.inl hdt)))
    · exact .inr (.inr (.inr (.inr (.inl hk))))
    · exact .inl (.inl ⟨x, y, hflag⟩)
    · exact .inl (.inr (.inl hdrw))
    · exact .inl (.inr (.inr hadd))
    · obtain rfl : x = regF := Fin.last_le_iff.1 hx
      exact .inr (.inr (.inr (.inr (.inr rfl))))

/-! ### KEYS as an input -/

theorem mapNext_withAccess (f : State → State) (s t : State) (kind : AccessKind) (n : Nat) :
    mapNext f (withAccess s kind n t) = withAccess s kind n (f t) := by
  unfold withAccess
  split <;> rfl

theorem exec_call_hostKeys (nnn : Addr12) (keys : BitVec 16) (s : State) :
    exec (.call nnn) (hostKeys keys s) = mapNext (hostKeys keys) (exec (.call nnn) s) := by
  simp only [exec, execCall, apply_dite (mapNext (hostKeys keys))]
  rfl

theorem exec_ret_hostKeys (keys : BitVec 16) (s : State) :
    exec .ret (hostKeys keys s) = mapNext (hostKeys keys) (exec .ret s) := by
  simp only [exec, execRet, apply_dite (mapNext (hostKeys keys))]
  rfl

/-- Settles O51: every operation but the key check and the key scan passes KEYS through, and the checks
of the stack and of a data access do not read it. -/
theorem onlyKeyInstructionsReadKeys : Obligations.OnlyKeyInstructionsReadKeys := by
  intro i s keys hi
  cases i
  case skp x => exact absurd rfl (hi x).1
  case sknp x => exact absurd rfl (hi x).2.1
  case ldVxK x => exact absurd rfl (hi x).2.2
  case call nnn => exact exec_call_hostKeys nnn keys s
  case ret => exact exec_ret_hostKeys keys s
  case drw | ldBVx | ldMemVx | ldVxMem =>
    refine Eq.trans ?_ (mapNext_withAccess (hostKeys keys) s _ _ _).symm
    rfl
  all_goals rfl

/-! ### Reset and load -/

/-- The font in memory: row `r` of glyph `d` at `d * 5 + r` (R33). -/
theorem Memory.resetByte_glyph (p : Params) (d : Fin 16) (r : Fin 5) :
    Memory.resetByte p (d.val * 5 + r.val) = p.font[d][r] := by
  have hlt : d.val * 5 + r.val < fontSize := by unfold fontSize; omega
  have hd : (d.val * 5 + r.val) / 5 = d.val := by omega
  have hr : (d.val * 5 + r.val) % 5 = r.val := by omega
  simp [Memory.resetByte, hlt, hd, hr]

theorem Memory.resetByte_of_le (p : Params) {a : Nat} (h : 0x050 ≤ a) :
    Memory.resetByte p a = 0#8 :=
  dif_neg (Nat.not_lt.2 h)

/-- After a reset memory reads as the reset content everywhere. -/
theorem hostReset_readMem (s : State) (a : Nat) :
    (hostReset s).readMem a = Memory.resetByte s.params a := rfl

/-- Settles O53: field by field; memory lists nothing, so it reads as the font and zeros. -/
theorem resetValues : Obligations.ResetValues := by
  intro s
  refine ⟨fun r => ?_, rfl, rfl, fun k => ?_, rfl, rfl, rfl, fun d r => ?_, fun a ha _ => ?_,
    fun c _ => ?_, rfl, fun k _ => ?_⟩
  · simp [State.getV, hostReset, State.resetWith]
  · simp [State.stackEntry, hostReset, State.resetWith]
  · exact (hostReset_readMem s _).trans (Memory.resetByte_glyph s.params d r)
  · exact (hostReset_readMem s a).trans (Memory.resetByte_of_le s.params ha)
  · exact Screen.cell_blank c
  · exact BitVec.getLsbD_zero

theorem State.inv_resetWith (p : Params) : (State.resetWith p).Inv := by
  refine ⟨Memory.wf_nil p, (by decide : (0x0200#16).toNat ≤ 0x10FE), fun k => ?_⟩
  simp [State.stackEntry, State.resetWith]

theorem State.inv_storeBytes {s : State} (a : Nat) (bs : List Byte) (h : s.Inv) :
    (s.storeBytes a bs).Inv := by
  obtain ⟨hwf, hpc, hstack⟩ := h
  exact ⟨State.wf_storeBytes a bs hwf, hpc, hstack⟩

/-- A load that is not refused stored the image, or was rejected and left the state (R302, R303). -/
theorem hostLoad_ok {bytes : List Byte} {s t : State} {st : LoadStatus}
    (h : hostLoad bytes s = .ok (t, st)) :
    t = { s.storeBytes progBase bytes with lifecycle := .running } ∨ t = s := by
  unfold hostLoad at h
  split at h
  · split at h <;> cases h
    · exact .inl rfl
    · exact .inr rfl
  · cases h

/-- Settles O56: a reset meets the invariant, and a load stores bytes or leaves the state. -/
theorem invariantHoldsAfterResetAndLoad : Obligations.InvariantHoldsAfterResetAndLoad := by
  refine ⟨State.inv_resetWith _, fun s t bytes st => ?_⟩
  have hreset : (hostReset s).Inv := State.inv_resetWith s.params
  refine ⟨hreset, fun h => ?_⟩
  obtain rfl | rfl := hostLoad_ok h
  · exact State.inv_storeBytes progBase bytes hreset
  · exact hreset

end Sys2Proof.Machine
end

section
/-! PROOFS. The statements about memory (20_memory.md): which cycles write it, what a store leaves for the
next fetch, and the font under FONT_WRITE_POLICY = fault. The one idea is `StoredAtIndex`: a store that
completed passed the access check, so its bytes lie inside memory and, under that policy, above the font. -/

namespace Sys2Proof.Machine

/-! ### The access check -/

theorem State.index_add_le_of_badAddress_none {s : State} {kind : AccessKind} {n : Nat}
    (h : s.badAddress kind n = none) (hn : 0 < n) : s.index.toNat + n ≤ 0x1000 := by
  obtain ⟨hsome, -⟩ | ⟨hsome, -⟩ | ⟨-, hin, -⟩ := s.badAddress_cases kind n
  · rw [h] at hsome; cases hsome
  · rw [h] at hsome; cases hsome
  · omega

theorem State.le_index_of_badAddress_none {s : State} {n : Nat} (h : s.badAddress .write n = none)
    (hn : 0 < n) (hpol : s.params.fontWritePolicy = .fault) : 0x050 ≤ s.index.toNat := by
  obtain ⟨hsome, -⟩ | ⟨hsome, -⟩ | ⟨-, -, hfont⟩ := s.badAddress_cases .write n
  · rw [h] at hsome; cases hsome
  · rw [h] at hsome; cases hsome
  · simpa [hpol, hn.ne'] using hfont

/-! ### Which instructions write memory -/

theorem State.readMem_congr {s t : State} (hparams : t.params = s.params) (hmem : t.mem = s.mem)
    (a : Nat) : t.readMem a = s.readMem a := by
  unfold State.readMem
  rw [hparams, hmem]

/-- Only `Fx33` and `Fx55` write memory (R51). -/
theorem exec_next_readMem {i : Instr} {s t : State} (h : exec i s = .next t)
    (hdigits : ∀ x, i ≠ .ldBVx x) (hregs : ∀ x, i ≠ .ldMemVx x) (a : Nat) :
    t.readMem a = s.readMem a := by
  obtain ⟨-, hparams, -, -, -, -, -, -, hmem, -⟩ := exec_next_frame h
  exact State.readMem_congr hparams (hmem hdigits hregs) a

/-- Settles O36: by the frame of `exec`; an unknown word, the timers and the report leave memory. -/
theorem onlyStoresWriteMemory : Obligations.OnlyStoresWriteMemory := by
  intro s t h hdigits hregs a
  obtain ⟨hl, hcan, ⟨-, rfl⟩ | ⟨i, u, hdec, hexec, rfl⟩⟩ := step_next h
  · rfl
  · have hi : s.fetches i := ⟨hl, hcan, hdec⟩
    exact exec_next_readMem hexec (fun x e => hdigits x (e ▸ hi)) (fun x e => hregs x (e ▸ hi)) a

/-! ### What a completed store leaves -/

/-- The access check let `s` store `bs` from `I`, and `t` reads as memory after that store. -/
def StoredAtIndex (s t : State) (bs : List Byte) : Prop :=
  s.badAddress .write bs.length = none ∧
    ∀ a, t.readMem a = (s.storeBytes s.index.toNat bs).readMem a

theorem State.fetches.exec_next {s t : State} {i : Instr} (hi : s.fetches i) (h : step s = .next t) :
    ∃ u, exec i s = .next u ∧ t = u.endCycle .ok := by
  rw [step_of_fetches hi] at h
  split at h <;> cases h
  exact ⟨_, ‹_›, rfl⟩

theorem storedAtIndex_of_ldBVx {s t : State} {x : Reg} (hi : s.fetches (.ldBVx x))
    (h : step s = .next t) : StoredAtIndex s t (decimalDigits (s.getV x)) := by
  obtain ⟨u, hexec, rfl⟩ := hi.exec_next h
  obtain ⟨hacc, rfl⟩ := withAccess_next hexec
  exact ⟨hacc, fun _ => rfl⟩

theorem storedAtIndex_of_ldMemVx {s t : State} {x : Reg} (hi : s.fetches (.ldMemVx x))
    (h : step s = .next t) : StoredAtIndex s t (s.regBlock x) := by
  obtain ⟨u, hexec, rfl⟩ := hi.exec_next h
  obtain ⟨hacc, rfl⟩ := withAccess_next hexec
  exact ⟨(s.regBlock_length x).symm ▸ hacc, fun _ => rfl⟩

theorem StoredAtIndex.inside {s t : State} {bs : List Byte} (h : StoredAtIndex s t bs)
    (hbs : 0 < bs.length) : s.index.toNat + bs.length ≤ 0x1000 :=
  State.index_add_le_of_badAddress_none h.1 hbs

theorem StoredAtIndex.readMem {s t : State} {bs : List Byte} (h : StoredAtIndex s t bs) {k : Nat}
    (hk : k < bs.length) : t.readMem (s.index.toNat + k) = bs[k] := by
  have hin := h.inside (by omega)
  obtain ⟨-, hread⟩ := h
  rw [hread, State.storeBytes_readMem s _ bs _ hin, dif_pos (by omega)]
  simp

/-- A fetch reads the stored bytes, wherever in the block its word begins (R64). -/
theorem StoredAtIndex.fetchWord_eq {s t w : State} {bs : List Byte} (h : StoredAtIndex s t bs)
    (hw : ∀ a, w.readMem a = t.readMem a) {k : Nat} (hpc : w.pc.toNat = s.index.toNat + k)
    (hk : k + 1 < bs.length) : fetchWord w = .ok (wordOfBytes bs[k] bs[k + 1]) := by
  have hin := h.inside (by omega)
  have hcan : w.canFetch = true := decide_eq_true (by omega)
  have hhi : w.readMem w.pc.toNat = bs[k] := by rw [hw, hpc, h.readMem]
  have hlo : w.readMem (w.pc.toNat + 1) = bs[k + 1] := by rw [hw, hpc]; exact h.readMem hk
  rw [fetchWord, if_pos hcan, State.wordAtPc, hhi, hlo]

/-- Under FONT_WRITE_POLICY = fault a completed store leaves the font (R59). -/
theorem StoredAtIndex.font {s t : State} {bs : List Byte} (h : StoredAtIndex s t bs)
    (hpol : s.params.fontWritePolicy = .fault) {a : Nat} (ha : a < 0x050) :
    t.readMem a = s.readMem a := by
  obtain ⟨hacc, hread⟩ := h
  rw [hread]
  refine State.storeBytes_readMem_outside s _ bs a ?_
  obtain hnone | hsome := Nat.eq_zero_or_pos bs.length
  · omega
  · have := State.le_index_of_badAddress_none hacc hsome hpol
    omega

@[simp] theorem decimalDigits_length (v : Byte) : (decimalDigits v).length = 3 := rfl

/-- The two words in a block of decimal digits, as numbers (R203). -/
theorem decimalDigits_words (v : Byte) :
    (wordOfBytes (decimalDigits v)[0] (decimalDigits v)[1]).toNat =
        v.toNat / 100 * 256 + v.toNat / 10 % 10 ∧
      (wordOfBytes (decimalDigits v)[1] (decimalDigits v)[2]).toNat =
        v.toNat / 10 % 10 * 256 + v.toNat % 10 := by
  have hv := v.isLt
  simp only [wordOfBytes_toNat, decimalDigits, List.getElem_cons_zero, List.getElem_cons_succ,
    BitVec.toNat_ofNat]
  omega

/-- Settles O35: both instructions store a block at `I`, and a fetch inside it reads its bytes. -/
theorem fetchSeesStoredBytes : Obligations.FetchSeesStoredBytes := by
  constructor
  · intro s t w x j k hi h hpc hk hkx hw
    have hlen := s.regBlock_length x
    have hfetch := (storedAtIndex_of_ldMemVx hi h).fetchWord_eq hw hpc (by omega)
    simpa only [State.regBlock_getElem, ← hk] using hfetch
  · intro s t w x hi h hw
    have hstored := storedAtIndex_of_ldBVx hi h
    obtain ⟨hfirst, hsecond⟩ := decimalDigits_words (s.getV x)
    exact ⟨fun hpc => ⟨_, hstored.fetchWord_eq hw (k := 0) hpc (by simp), hfirst⟩,
      fun hpc => ⟨_, hstored.fetchWord_eq hw hpc (by simp), hsecond⟩⟩

/-! ### The font along a run -/

/-- Under FONT_WRITE_POLICY = fault every completed cycle leaves the font (R59). -/
theorem step_next_font {s t : State} (h : step s = .next t)
    (hpol : s.params.fontWritePolicy = .fault) {a : Nat} (ha : a < 0x050) :
    t.readMem a = s.readMem a := by
  by_cases hdigits : ∃ x, s.fetches (.ldBVx x)
  · obtain ⟨x, hi⟩ := hdigits
    exact (storedAtIndex_of_ldBVx hi h).font hpol ha
  by_cases hregs : ∃ x, s.fetches (.ldMemVx x)
  · obtain ⟨x, hi⟩ := hregs
    exact (storedAtIndex_of_ldMemVx hi h).font hpol ha
  exact onlyStoresWriteMemory s t h (not_exists.1 hdigits) (not_exists.1 hregs) a

/-- The invariant of a run under FONT_WRITE_POLICY = fault: `s` has that policy, and its
font is that of `s₀`. -/
def GuardsFontOf (s₀ s : State) : Prop :=
  s.params.fontWritePolicy = .fault ∧ ∀ a < 0x050, s.readMem a = s₀.readMem a

theorem step_keeps_guardsFontOf {s₀ s t : State} (h : step s = .next t) (hs : GuardsFontOf s₀ s) :
    GuardsFontOf s₀ t := by
  obtain ⟨hpol, hfont⟩ := hs
  obtain ⟨-, hparams⟩ := engineNeverWritesKeysOrParameters s t h
  exact ⟨hparams ▸ hpol, fun a ha => (step_next_font h hpol ha).trans (hfont a ha)⟩

/-- Settles O37: by induction over the run; a store that completes under the policy begins at 0x050 or
above, and no other cycle writes memory. -/
theorem fontIsNeverOverwrittenUnderFault : Obligations.FontIsNeverOverwrittenUnderFault := by
  intro σ n hrun hpol k hk
  obtain ⟨-, hfont⟩ : GuardsFontOf (σ 0) (σ k) :=
    hrun.invariant ⟨hpol, fun _ _ => rfl⟩ (fun _ _ hs => hs)
      (fun _ _ => step_keeps_guardsFontOf) k hk
  exact hfont

end Sys2Proof.Machine
end

section
/-! PROOFS. The statements about the encoding (30_encoding.md). The one idea is `Instr.withFieldsOf`: a row
of R75 with its operands read from a word. A word that matches the row of `i` decodes to
`i.withFieldsOf w` (`encodedAs_row`), and what a word decodes to encodes to that word. -/

namespace Sys2Proof

/-! ### The fields of a word make up the word (R71) -/

theorem packNNN_of_fields {w : Word} {op : BitVec 4} (hop : opField w = op) :
    packNNN op (nnnField w) = w := by
  apply BitVec.eq_of_toNat_eq
  have hw := w.isLt
  rw [packNNN_toNat, ← hop, opField_toNat, nnnField_toNat]
  omega

theorem packXNN_of_fields {w : Word} {op : BitVec 4} {nn : Byte} (hop : opField w = op)
    (hnn : nnField w = nn) : packXNN op (regBits (xField w)) nn = w := by
  apply BitVec.eq_of_toNat_eq
  have hw := w.isLt
  rw [packXNN_toNat, ← hop, ← hnn, opField_toNat, regBits_toNat, xField_val, nnField_toNat]
  omega

theorem heightBits_heightField (w : Word) : heightBits (heightField w) = nField w := by
  apply BitVec.eq_of_toNat_eq
  rw [heightBits_toNat, heightField_val, nField_toNat]

theorem packXYN_of_fields {w : Word} {op n : BitVec 4} (hop : opField w = op) (hn : nField w = n) :
    packXYN op (regBits (xField w)) (regBits (yField w)) n = w := by
  apply BitVec.eq_of_toNat_eq
  have hw := w.isLt
  rw [packXYN_toNat, ← hop, ← hn, opField_toNat, regBits_toNat, regBits_toNat, xField_val, yField_val,
    nField_toNat]
  omega

/-! ### What a masked word says about the fields (R74) -/

/-- Words that agree under the mask 0xF000 have the same `op`. -/
theorem opField_eq_of_and_op {w v : Word} (h : w &&& 0xF000#16 = v &&& 0xF000#16) :
    opField w = opField v := by
  rw [← packNNN_of_fields (w := w) rfl, ← packNNN_of_fields (w := v) rfl, packNNN_and_op,
    packNNN_and_op] at h
  simpa using congrArg opField h

/-- Words that agree under the mask 0xF00F have the same `op` and `n`. -/
theorem fields_eq_of_and_opN {w v : Word} (h : w &&& 0xF00F#16 = v &&& 0xF00F#16) :
    opField w = opField v ∧ nField w = nField v := by
  rw [← packXYN_of_fields (w := w) rfl rfl, ← packXYN_of_fields (w := v) rfl rfl, packXYN_and_sel,
    packXYN_and_sel] at h
  exact ⟨by simpa using congrArg opField h, by simpa using congrArg nField h⟩

/-- Words that agree under the mask 0xF0FF have the same `op` and `nn`. -/
theorem fields_eq_of_and_opNN {w v : Word} (h : w &&& 0xF0FF#16 = v &&& 0xF0FF#16) :
    opField w = opField v ∧ nnField w = nnField v := by
  rw [← packXNN_of_fields (w := w) rfl rfl, ← packXNN_of_fields (w := v) rfl rfl, packXNN_and_sel,
    packXNN_and_sel] at h
  exact ⟨by simpa using congrArg opField h, by simpa using congrArg nnField h⟩

/-! ### The row of an instruction, with operands from a word -/

/-- The instruction of the same row whose operands are the fields of the word (R71, R75). -/
def Instr.withFieldsOf (w : Word) : Instr → Instr
  | .cls => .cls
  | .ret => .ret
  | .jp _ => .jp (nnnField w)
  | .call _ => .call (nnnField w)
  | .seImm _ _ => .seImm (xField w) (nnField w)
  | .sneImm _ _ => .sneImm (xField w) (nnField w)
  | .seReg _ _ => .seReg (xField w) (yField w)
  | .sneReg _ _ => .sneReg (xField w) (yField w)
  | .ldImm _ _ => .ldImm (xField w) (nnField w)
  | .addImm _ _ => .addImm (xField w) (nnField w)
  | .ldReg _ _ => .ldReg (xField w) (yField w)
  | .or _ _ => .or (xField w) (yField w)
  | .and _ _ => .and (xField w) (yField w)
  | .xor _ _ => .xor (xField w) (yField w)
  | .addReg _ _ => .addReg (xField w) (yField w)
  | .sub _ _ => .sub (xField w) (yField w)
  | .shr _ _ => .shr (xField w) (yField w)
  | .subn _ _ => .subn (xField w) (yField w)
  | .shl _ _ => .shl (xField w) (yField w)
  | .ldI _ => .ldI (nnnField w)
  | .jpV0 _ => .jpV0 (nnnField w)
  | .rnd _ _ => .rnd (xField w) (nnField w)
  | .drw _ _ _ => .drw (xField w) (yField w) (heightField w)
  | .skp _ => .skp (xField w)
  | .sknp _ => .sknp (xField w)
  | .ldVxDt _ => .ldVxDt (xField w)
  | .ldVxK _ => .ldVxK (xField w)
  | .ldDtVx _ => .ldDtVx (xField w)
  | .ldStVx _ => .ldStVx (xField w)
  | .addIVx _ => .addIVx (xField w)
  | .ldFVx _ => .ldFVx (xField w)
  | .ldBVx _ => .ldBVx (xField w)
  | .ldMemVx _ => .ldMemVx (xField w)
  | .ldVxMem _ => .ldVxMem (xField w)

@[simp] theorem Instr.row_withFieldsOf (w : Word) (i : Instr) : (i.withFieldsOf w).row = i.row := by
  cases i <;> rfl

/-- The encoder loses no operand: the fields of the encoded word are the operands. -/
@[simp] theorem Instr.withFieldsOf_encodeWord (i : Instr) : i.withFieldsOf (encodeWord i) = i := by
  cases i <;> simp [Instr.withFieldsOf, encodeWord]

theorem Instr.encodeWord_and_mask (i : Instr) : encodeWord i &&& i.row.mask = i.row.pattern := by
  cases i
  case cls | ret => rfl
  case jp | call | ldI | jpV0 => exact packNNN_and_op _ _
  case seImm | sneImm | ldImm | addImm | rnd => exact packXNN_and_op _ _ _
  case drw => exact packXYN_and_op _ _ _ _
  case seReg | sneReg | ldReg | or | and | xor | addReg | sub | shr | subn | shl =>
    exact packXYN_and_sel _ _ _ _
  all_goals exact packXNN_and_sel _ _ _

/-- One instruction for each row of R75, in the table's order; the operands do not matter. -/
def rowInstrs : List Instr :=
  [.cls, .ret, .jp 0, .call 0, .seImm 0 0, .sneImm 0 0, .seReg 0 0, .sneReg 0 0, .ldImm 0 0,
    .addImm 0 0, .ldReg 0 0, .or 0 0, .and 0 0, .xor 0 0, .addReg 0 0, .sub 0 0, .shr 0 0, .subn 0 0,
    .shl 0 0, .ldI 0, .jpV0 0, .rnd 0 0, .drw 0 0 0, .skp 0, .sknp 0, .ldVxDt 0, .ldVxK 0, .ldDtVx 0,
    .ldStVx 0, .addIVx 0, .ldFVx 0, .ldBVx 0, .ldMemVx 0, .ldVxMem 0]

theorem opcodeTable_eq_map_row : opcodeTable = rowInstrs.map Instr.row := rfl

theorem Instr.row_mem_opcodeTable (i : Instr) : i.row ∈ opcodeTable := by
  cases i <;> simp [Instr.row, opcodeTable]

theorem exists_row_of_mem_opcodeTable {r : OpcodeRow} (h : r ∈ opcodeTable) : ∃ i : Instr, i.row = r := by
  rw [opcodeTable_eq_map_row] at h
  obtain ⟨i, -, hi⟩ := List.mem_map.1 h
  exact ⟨i, hi⟩

/-! ### Decoding a word that matches a row -/

/-- A word that matches the row of `i` decodes to that instruction with the word's fields as operands:
the encoding clause of every instruction. The masked digits of the word are those of `encodeWord i`. -/
theorem encodedAs_row (i : Instr) :
    Machine.EncodedAs i.row.mask i.row.pattern (fun w => i.withFieldsOf w) := by
  intro w hrow
  have h := hrow.trans i.encodeWord_and_mask.symm
  cases i
  case cls | ret =>
    obtain rfl := BitVec.and_allOnes.symm.trans hrow
    rfl
  case jp | call | ldI | jpV0 | seImm | sneImm | ldImm | addImm | rnd | drw =>
    have hop := opField_eq_of_and_op h
    simp [decodeWord, hop, encodeWord, Instr.withFieldsOf]
  case seReg | sneReg =>
    obtain ⟨hop, hn⟩ := fields_eq_of_and_opN h
    simp [decodeWord, hop, hn, encodeWord, Instr.withFieldsOf]
  case ldReg | or | and | xor | addReg | sub | shr | subn | shl =>
    obtain ⟨hop, hn⟩ := fields_eq_of_and_opN h
    simp [decodeWord, decodeFamily8, hop, hn, encodeWord, Instr.withFieldsOf]
  case skp | sknp =>
    obtain ⟨hop, hnn⟩ := fields_eq_of_and_opNN h
    simp [decodeWord, decodeFamilyE, hop, hnn, encodeWord, Instr.withFieldsOf]
  all_goals
    obtain ⟨hop, hnn⟩ := fields_eq_of_and_opNN h
    simp [decodeWord, decodeFamilyF, hop, hnn, encodeWord, Instr.withFieldsOf]

/-- An encoded instruction matches its row and its fields are the operands, so it decodes to itself. -/
theorem decodeWord_encodeWord (i : Instr) : decodeWord (encodeWord i) = some i := by
  simpa using encodedAs_row i (encodeWord i) i.encodeWord_and_mask

/-- Settles O4: the word of the two bytes is the encoded word, which decodes to the instruction. -/
theorem decodeOfEncode : Obligations.DecodeOfEncode := by
  intro i rest _
  rw [encode, decode_bytesOfWord, decodeWord_encodeWord]

/-! ### The word of a decoded instruction -/

theorem encodeWord_of_decodeFamily0 {w : Word} {i : Instr} (h : decodeFamily0 w = some i) :
    encodeWord i = w := by
  unfold decodeFamily0 at h
  split at h
  · cases h; exact Eq.symm ‹_›
  · split at h <;> cases h
    exact Eq.symm ‹_›

theorem encodeWord_of_decodeFamily8 {w : Word} {i : Instr} (hop : opField w = 0x8#4)
    (h : decodeFamily8 w = some i) : encodeWord i = w := by
  unfold decodeFamily8 at h
  split at h <;> cases h <;> exact packXYN_of_fields hop ‹_›

theorem encodeWord_of_decodeFamilyE {w : Word} {i : Instr} (hop : opField w = 0xE#4)
    (h : decodeFamilyE w = some i) : encodeWord i = w := by
  unfold decodeFamilyE at h
  split at h <;> cases h <;> exact packXNN_of_fields hop ‹_›

theorem encodeWord_of_decodeFamilyF {w : Word} {i : Instr} (hop : opField w = 0xF#4)
    (h : decodeFamilyF w = some i) : encodeWord i = w := by
  unfold decodeFamilyF at h
  split at h <;> cases h <;> exact packXNN_of_fields hop ‹_›

/-- Settles O5: family by family, the fields read by the decoder and the selectors it matched make up
the word. -/
theorem encodeOfDecode : Obligations.EncodeOfDecode := by
  intro w i h
  unfold decodeWord at h
  -- `h_1`, ..., `h_16` are the families 0x0, ..., 0xF; `h_17` is the default.
  split at h
  case h_1 => exact encodeWord_of_decodeFamily0 h
  case h_9 hop => exact encodeWord_of_decodeFamily8 hop h
  case h_15 hop => exact encodeWord_of_decodeFamilyE hop h
  case h_16 hop => exact encodeWord_of_decodeFamilyF hop h
  case h_6 hop | h_10 hop =>
    split at h <;> cases h
    exact packXYN_of_fields hop ‹_›
  case h_2 hop | h_3 hop | h_11 hop | h_12 hop => cases h; exact packNNN_of_fields hop
  case h_14 hop =>
    cases h
    exact packXYN_of_fields hop (heightBits_heightField w).symm
  case h_17 => cases h
  all_goals cases h; exact packXNN_of_fields ‹_› rfl

/-! ### Words and rows -/

theorem decodeWord_and_mask {w : Word} {i : Instr} (h : decodeWord w = some i) :
    w &&& i.row.mask = i.row.pattern := by
  rw [← encodeOfDecode w i h]
  exact i.encodeWord_and_mask

theorem exists_decodeWord_of_and_mask {w : Word} {r : OpcodeRow} (hr : r ∈ opcodeTable)
    (h : w &&& r.mask = r.pattern) : ∃ i, decodeWord w = some i ∧ i.row = r := by
  obtain ⟨i, rfl⟩ := exists_row_of_mem_opcodeTable hr
  exact ⟨_, encodedAs_row i w h, i.row_withFieldsOf w⟩

/-- Settles O2: a row that the word matches is the row of what it decodes to, and the word matches the
row of what it decodes to. -/
theorem wordMatchesExactlyItsRow : Obligations.WordMatchesExactlyItsRow := by
  intro w
  cases hdec : decodeWord w with
  | none =>
    refine .inr ⟨rfl, fun r hr h => ?_⟩
    obtain ⟨i, hi, -⟩ := exists_decodeWord_of_and_mask hr h
    cases hdec.symm.trans hi
  | some i =>
    refine .inl ⟨i, rfl, i.row_mem_opcodeTable, decodeWord_and_mask hdec, fun r hr h => ?_⟩
    obtain ⟨j, hj, rfl⟩ := exists_decodeWord_of_and_mask hr h
    cases hdec.symm.trans hj
    rfl

/-! ### Unknown words (R78) -/

theorem decodeFamily0_eq_none {w : Word} :
    decodeFamily0 w = none ↔ w ≠ 0x00E0#16 ∧ w ≠ 0x00EE#16 := by
  unfold decodeFamily0
  split <;> simp_all

theorem decodeFamily8_eq_none {w : Word} :
    decodeFamily8 w = none ↔ w.toNat % 16 ∈ [0x8, 0x9, 0xA, 0xB, 0xC, 0xD, 0xF] := by
  rw [← nField_toNat, decodeFamily8]
  generalize nField w = n
  split
  case h_10 =>
    simp only [imp_false, true_iff, List.mem_cons, List.not_mem_nil] at *
    bv_omega
  all_goals simp

theorem decodeFamilyE_eq_none {w : Word} :
    decodeFamilyE w = none ↔ w.toNat % 256 ∉ [0x9E, 0xA1] := by
  rw [← nnField_toNat, decodeFamilyE]
  split <;> simp_all [← BitVec.toNat_inj]

theorem decodeFamilyF_eq_none {w : Word} :
    decodeFamilyF w = none ↔
      w.toNat % 256 ∉ [0x07, 0x0A, 0x15, 0x18, 0x1E, 0x29, 0x33, 0x55, 0x65] := by
  rw [← nnField_toNat, decodeFamilyF]
  split <;> simp_all [← BitVec.toNat_inj]

/-- Settles O3: the decoder's own dispatch, family by family. -/
theorem unknownWordsAreTheListedOnes : Obligations.UnknownWordsAreTheListedOnes := by
  intro w
  have hop : w.toNat / 4096 = (opField w).toNat := by
    have hw := w.isLt
    rw [opField_toNat]
    omega
  rw [hop, decodeWord]
  -- `h_1`, ..., `h_16` are the families 0x0, ..., 0xF; `h_17` is the default, which no digit reaches.
  split
  case h_1 h => simp [h, decodeFamily0_eq_none]
  case h_9 h => simp [h, decodeFamily8_eq_none]
  case h_15 h => simp [h, decodeFamilyE_eq_none]
  case h_16 h => simp [h, decodeFamilyF_eq_none]
  case h_6 h | h_10 h => simp [h, ← nField_toNat, ← BitVec.toNat_inj]
  case h_17 =>
    exfalso
    simp only [imp_false] at *
    bv_omega
  all_goals
    rename_i h
    simp [h]

/-- Settles O1: the decoder evaluated on the written-out words. -/
theorem specWordsDecode : Obligations.SpecWordsDecode := by
  unfold Obligations.SpecWordsDecode
  decide

end Sys2Proof
end

section
/-! PROOFS. The statements about the cycle (40_cycle_engine.md). The one idea is `Stops`: the conditions
an instruction raises and on what, said once; none is a fetch condition, and none reads KEYS, the outputs
or the random byte. -/

namespace Sys2Proof.Machine

/-! ### The step, by what its fetch answers -/

theorem State.canFetch_eq_false {s : State} : s.canFetch = false ↔ 0xFFE < s.pc.toNat :=
  decide_eq_false_iff_not.trans not_le

theorem fetchWord_of_le {s : State} (h : s.pc.toNat ≤ 0xFFE) : fetchWord s = .ok s.wordAtPc :=
  if_pos (decide_eq_true h)

theorem fetchWord_of_gt {s : State} (h : 0xFFE < s.pc.toNat) :
    fetchWord s = .error (.invalidFetch s.pc) :=
  if_neg (Bool.eq_false_iff.1 (State.canFetch_eq_false.2 h))

theorem step_of_fetchWord_ok {s : State} {w : Word} (hl : s.lifecycle ≠ .created)
    (h : fetchWord s = .ok w) : step s = cycleOnWord w s := by
  rw [step, cycle, if_neg hl, h]

theorem step_of_fetchWord_error {s : State} {f : Fault} (hl : s.lifecycle ≠ .created)
    (h : fetchWord s = .error f) : step s = .fault f := by
  rw [step, cycle, if_neg hl, h]
  rfl

theorem step_of_unknown {s : State} (hl : s.lifecycle ≠ .created) (hpc : s.pc.toNat ≤ 0xFFE)
    (hdec : decodeWord s.wordAtPc = none) :
    step s = .next (s.advance.endCycle (.unknownOpcode s.wordAtPc s.pc)) := by
  rw [step_of_fetchWord_ok hl (fetchWord_of_le hpc), cycleOnWord, hdec, execUnknown]

theorem decodeWord_of_decode {hi lo : Byte} {i : Instr} (h : decode [hi, lo] = .ok (i, [])) :
    decodeWord (wordOfBytes hi lo) = some i := by
  simp only [decode] at h
  split at h <;> cases h
  exact ‹_›

/-- Settles O6: the bytes at PC make the fetched word, so the state fetches the instruction; the timer
and the report step are field updates. -/
theorem stepRunsTheDecodedInstruction : Obligations.StepRunsTheDecodedInstruction := by
  intro s i hl hpc hdec
  have hi : s.fetches i := ⟨hl, decide_eq_true hpc, decodeWord_of_decode hdec⟩
  constructor
  · intro u hu
    rw [step_of_fetches hi, hu]
    rfl
  · intro f hf
    rw [step_of_fetches hi, hf]

/-- The frame of a completed cycle whose execute step changed nothing but PC. -/
theorem onlyChanges_setPc_endCycle (s : State) (w : Word) (status : Status) :
    OnlyChanges s ((s.setPc w).endCycle status) (.pc :: Part.cycleParts) := by
  intro p hp
  cases p
  case pc | dt | st | draw | out | rndIndex | lifecycle => exact absurd (by decide) hp
  all_goals rfl

/-- Settles O8: the cycle on an unknown word is the default advance and then steps 4 and 5. -/
theorem unknownWordCycleCompletes : Obligations.UnknownWordCycleCompletes := by
  intro s hl hpc hdec
  refine ⟨_, step_of_unknown hl hpc hdec, rfl, rfl, rfl, countDown_toNat s.dt, countDown_toNat s.st,
    rfl, rfl, ?_, onlyChanges_setPc_endCycle s _ _⟩
  exact beq_iff_eq

/-! ### Fatal conditions -/

/-- The conditions that an instruction raises, each with its clause and its info (R131, R133, R240, R241,
R56, R59). -/
inductive Stops (s : State) : Instr → Fault → Prop where
  | call (nnn : Addr12) (h : ¬ s.sp.val < 16) : Stops s (.call nnn) (.stackOverflow s.pc)
  | ret (h : ¬ 0 < s.sp.val) : Stops s .ret (.stackUnderflow s.pc)
  | skp (x : Reg) (h : 15 < (s.getV x).toNat) : Stops s (.skp x) (.invalidKeyIndex (s.getV x))
  | sknp (x : Reg) (h : 15 < (s.getV x).toNat) : Stops s (.sknp x) (.invalidKeyIndex (s.getV x))
  | drw (x y : Reg) (n : Height) {a : Nat} (h : s.badAddress .read n.val = some a) :
      Stops s (.drw x y n) (.invalidMemoryAccess a)
  | ldBVx (x : Reg) {a : Nat} (h : s.badAddress .write 3 = some a) :
      Stops s (.ldBVx x) (.invalidMemoryAccess a)
  | ldMemVx (x : Reg) {a : Nat} (h : s.badAddress .write (x.val + 1) = some a) :
      Stops s (.ldMemVx x) (.invalidMemoryAccess a)
  | ldVxMem (x : Reg) {a : Nat} (h : s.badAddress .read (x.val + 1) = some a) :
      Stops s (.ldVxMem x) (.invalidMemoryAccess a)

theorem withKey_fault {s : State} {k : Byte} {next : Bool → State} {f : Fault}
    (h : withKey s k next = .fault f) : 15 < k.toNat ∧ f = .invalidKeyIndex k := by
  unfold withKey raiseFatal at h
  split at h <;> cases h
  exact ⟨‹_›, rfl⟩

theorem Stops.of_exec {i : Instr} {s : State} {f : Fault} (h : exec i s = .fault f) : Stops s i f := by
  cases i
  case call nnn =>
    simp only [exec, execCall, raiseFatal] at h
    split at h <;> cases h
    exact .call nnn ‹_›
  case ret =>
    simp only [exec, execRet, raiseFatal] at h
    split at h <;> cases h
    exact .ret ‹_›
  case skp x => obtain ⟨hk, rfl⟩ := withKey_fault h; exact .skp x hk
  case sknp x =>
    simp only [exec, execSknp] at h
    obtain ⟨hk, rfl⟩ := withKey_fault h
    exact .sknp x hk
  case drw x y n => obtain ⟨a, ha, rfl⟩ := withAccess_fault h; exact .drw x y n ha
  case ldBVx x => obtain ⟨a, ha, rfl⟩ := withAccess_fault h; exact .ldBVx x ha
  case ldMemVx x => obtain ⟨a, ha, rfl⟩ := withAccess_fault h; exact .ldMemVx x ha
  case ldVxMem x => obtain ⟨a, ha, rfl⟩ := withAccess_fault h; exact .ldVxMem x ha
  case ldVxK =>
    simp only [exec, execLdVxK] at h
    split at h <;> cases h
  all_goals cases h

theorem Stops.exec_eq {i : Instr} {s : State} {f : Fault} (h : Stops s i f) : exec i s = .fault f := by
  cases h with
  | call nnn h => exact dif_neg h
  | ret h => exact dif_neg h
  | skp x h => exact withKey_of_gt s.skipIf h
  | sknp x h => exact withKey_of_gt (fun pressed => s.skipIf (!pressed)) h
  | drw _ _ _ h | ldBVx _ h | ldMemVx _ h | ldVxMem _ h => exact withAccess_of_some _ h

/-- Everything execute can stop with. -/
theorem exec_fault_iff {i : Instr} {s : State} {f : Fault} : exec i s = .fault f ↔ Stops s i f :=
  ⟨Stops.of_exec, Stops.exec_eq⟩

/-- `InvalidFetch` is the fetch's own condition. -/
theorem Stops.ne_invalidFetch {s : State} {i : Instr} {f : Fault} (h : Stops s i f) (pc : Word) :
    f ≠ .invalidFetch pc := by
  cases h <;> nofun

/-- Settles O9: the fetch is the big-endian word or `InvalidFetch`, and no instruction raises that
condition, so a step that ends in it failed to fetch. -/
theorem fetchOrInvalidFetch : Obligations.FetchOrInvalidFetch := by
  refine ⟨fun s hpc => ⟨_, fetchWord_of_le (by omega), wordOfBytes_toNat _ _⟩,
    fun s hpc => fetchWord_of_gt (by omega), fun s hl => ⟨fun h => ?_, fun hpc => ?_⟩⟩
  · obtain ⟨-, ⟨hcan, -⟩ | ⟨-, i, -, hexec⟩⟩ := step_fault h
    · have hpc := State.canFetch_eq_false.1 hcan
      omega
    · exact absurd rfl ((exec_fault_iff.1 hexec).ne_invalidFetch s.pc)
  · exact step_of_fetchWord_error hl (fetchWord_of_gt (by omega))

/-! ### A fatal cycle and the cycle after it (R111, R262) -/

/-- The state that the host sees after a fatal cycle. -/
def State.withFatal (s : State) (f : Fault) : State :=
  { s with out := { status := .fatal f, changed := false, beep := false } }

theorem hostCycle_of_fault {s : State} {f : Fault} (h : step s = .fault f) :
    hostCycle s = .ok (s.withFatal f) := by
  rw [step] at h
  rw [hostCycle, h, State.withFatal]

theorem onlyChanges_withFatal (s : State) (f : Fault) : OnlyChanges s (s.withFatal f) [.out] := by
  intro p hp
  cases p
  case out => exact absurd (by decide) hp
  all_goals rfl

/-- No instruction's condition reads KEYS or the outputs. -/
theorem Stops.hostKeys_withFatal {s : State} {i : Instr} {f : Fault} (h : Stops s i f)
    (keys : BitVec 16) (g : Fault) : Stops (hostKeys keys (s.withFatal g)) i f := by
  cases h with
  | call nnn h => exact .call nnn h
  | ret h => exact .ret h
  | skp x h => exact .skp x h
  | sknp x h => exact .sknp x h
  | drw x y n h => exact .drw x y n h
  | ldBVx x h => exact .ldBVx x h
  | ldMemVx x h => exact .ldMemVx x h
  | ldVxMem x h => exact .ldVxMem x h

theorem step_fault_repeats {s : State} {f : Fault} (h : step s = .fault f) (keys : BitVec 16)
    (g : Fault) : step (hostKeys keys (s.withFatal g)) = .fault f := by
  obtain ⟨hl, ⟨hcan, rfl⟩ | ⟨hcan, i, hdec, hexec⟩⟩ := step_fault h
  · have hpc : 0xFFE < (hostKeys keys (s.withFatal g)).pc.toNat := State.canFetch_eq_false.1 hcan
    exact step_of_fetchWord_error hl (fetchWord_of_gt hpc)
  · have hi : (hostKeys keys (s.withFatal g)).fetches i := ⟨hl, hcan, hdec⟩
    rw [step_of_fetches hi, ((exec_fault_iff.1 hexec).hostKeys_withFatal keys g).exec_eq]

theorem Fault.two_le_code_and_le_six (f : Fault) : 2 ≤ f.code ∧ f.code ≤ 6 := by
  cases f <;> simp [Fault.code]

/-- Settles O12: the host's view differs from the state only in the outputs; neither they nor KEYS are
read by the fetch or by the condition of an instruction, so the next cycle ends in the same way. -/
theorem fatalCycleCommitsNothing : Obligations.FatalCycleCommitsNothing := by
  intro s f h
  obtain ⟨hlow, hhigh⟩ := f.two_le_code_and_le_six
  exact ⟨_, hostCycle_of_fault h, onlyChanges_withFatal s f, rfl, rfl, rfl, hlow, hhigh,
    fun keys => step_fault_repeats h keys f⟩

/-! ### DRAW and the report (R110, R226) -/

theorem exec_next_draw {i : Instr} {s t : State} (h : exec i s = .next t) :
    t.draw = true ↔ s.draw = true ∨ i = .cls ∨ ∃ x y n, i = .drw x y n := by
  obtain ⟨-, -, -, -, -, -, -, -, -, hframe⟩ := exec_next_frame h
  cases i
  case cls => cases h; simp
  case drw => obtain ⟨-, rfl⟩ := withAccess_next h; simp
  all_goals
    obtain ⟨-, hdraw⟩ := hframe (by simp) (by simp)
    simp [hdraw]

theorem State.fetches_iff_eq {s : State} {i j : Instr} (hi : s.fetches i) : s.fetches j ↔ i = j := by
  obtain ⟨hl, hcan, hdec⟩ := hi
  simp [State.fetches, hl, hcan, hdec]

theorem State.not_fetches_of_unknown {s : State} (hdec : decodeWord s.wordAtPc = none) (i : Instr) :
    ¬ s.fetches i := by
  simp [State.fetches, hdec]

/-- Settles O43: the report reads DRAW as execute left it and clears it; an unknown word leaves it, and
of the instructions only `00E0` and `Dxyn` set it. -/
theorem changedIsReportedAndCleared : Obligations.ChangedIsReportedAndCleared := by
  intro s t h
  obtain ⟨hl, hcan, ⟨hdec, rfl⟩ | ⟨i, u, hdec, hexec, rfl⟩⟩ := step_next h
  · refine ⟨rfl, ?_⟩
    simp [State.not_fetches_of_unknown hdec]
  · have hi : s.fetches i := ⟨hl, hcan, hdec⟩
    refine ⟨rfl, ?_⟩
    simpa [State.fetches_iff_eq hi] using exec_next_draw hexec

/-! ### The random byte as an input (R113) -/

/-- The state in which the cycle's random byte is the one with this number. -/
def State.setRndIndex (m : Nat) (s : State) : State := { s with rndIndex := m }

theorem mapNext_withKey (f : State → State) (s : State) (k : Byte) (next : Bool → State) :
    mapNext f (withKey s k next) = withKey s k fun pressed => f (next pressed) := by
  unfold withKey
  split <;> rfl

theorem exec_ldVxK_setRndIndex (x : Reg) (m : Nat) (s : State) :
    exec (.ldVxK x) (s.setRndIndex m) = mapNext (State.setRndIndex m) (exec (.ldVxK x) s) := by
  have hkeys : (s.setRndIndex m).keys = s.keys := rfl
  cases h : lowestKey s.keys <;> simp only [exec, execLdVxK, hkeys, h] <;> rfl

/-- Settles O52: every operation but the draw of the random byte passes its number through, and the
checks of the stack, of a key and of a data access do not read it. -/
theorem onlyRndReadsTheRandomByte : Obligations.OnlyRndReadsTheRandomByte := by
  intro i s m hi
  cases i
  case rnd x nn => exact absurd rfl (hi x nn)
  case ldVxK x => exact exec_ldVxK_setRndIndex x m s
  case call | ret =>
    refine Eq.trans ?_ (apply_dite (mapNext (State.setRndIndex m)) _ _ _).symm
    rfl
  case skp =>
    refine Eq.trans ?_ (mapNext_withKey (State.setRndIndex m) s _ s.skipIf).symm
    rfl
  case sknp =>
    refine Eq.trans ?_
      (mapNext_withKey (State.setRndIndex m) s _ fun pressed => s.skipIf (!pressed)).symm
    rfl
  case drw | ldBVx | ldMemVx | ldVxMem =>
    refine Eq.trans ?_ (mapNext_withAccess (State.setRndIndex m) s _ _ _).symm
    rfl
  all_goals rfl

end Sys2Proof.Machine
end

section
/-! PROOFS. The statements about control transfer and the stack (41_control_flow.md). The one idea is
`step_next_stackEntry_of_lt`: no completed cycle writes an entry below SP, so the return address that a
call pushed is still there when SP comes back to it. -/

namespace Sys2Proof.Machine

/-! ### Frames of the operations on PC and on the stack -/

theorem OnlyChanges.refl (s : State) (parts : List Part) : OnlyChanges s s parts := by
  intro p _
  cases p <;> rfl

theorem OnlyChanges.setPc {s t : State} {parts : List Part} (h : OnlyChanges s t parts)
    (hpc : .pc ∈ parts) (w : Word) : OnlyChanges s (t.setPc w) parts := by
  intro p hp
  cases p
  case pc => exact absurd hpc hp
  all_goals exact h _ hp

theorem onlyChanges_setPc (s : State) (w : Word) : OnlyChanges s (s.setPc w) [.pc] :=
  (OnlyChanges.refl s [.pc]).setPc (by simp) w

/-- A pop keeps the popped entry (R27). -/
theorem onlyChanges_pop_setPc (s : State) (w : Word) : OnlyChanges s (s.pop.setPc w) [.sp, .pc] := by
  refine OnlyChanges.setPc (fun p hp => ?_) (by simp) w
  cases p
  case sp => exact absurd (by simp) hp
  all_goals rfl

theorem State.push_stackEntry_of_ne {s : State} (w : Word) (h : s.sp.val < 16) {k : Fin 16}
    (hk : k.val ≠ s.sp.val) : (s.push w h).stackEntry k = s.stackEntry k := by
  rw [State.push_stackEntry, if_neg hk]

theorem onlyChanges_push_setPc {s : State} {k : Fin 16} (hk : s.sp.val = k.val) (v w : Word)
    (h : s.sp.val < 16) : OnlyChanges s ((s.push v h).setPc w) [.stack k, .sp, .pc] := by
  refine OnlyChanges.setPc (fun p hp => ?_) (by simp) w
  cases p
  case sp => exact absurd (by simp) hp
  case stack j =>
    have hj : j ≠ k := by rintro rfl; simp at hp
    exact State.push_stackEntry_of_ne v h (by rw [hk]; exact Fin.val_ne_of_ne hj)
  all_goals rfl

/-- The skip rule (R108): where `c` decides whether to skip, PC moves by 4 or by 2 and nothing else
changes. -/
theorem State.skipIf_spec (s : State) {c : Bool} {skip stay : Prop} (hskip : skip → c = true)
    (hstay : stay → c = false) :
    OnlyChanges s (s.skipIf c) [.pc] ∧ (skip → (s.skipIf c).pc = s.pc + 4#16) ∧
      (stay → (s.skipIf c).pc = s.pc + 2#16) := by
  refine ⟨onlyChanges_setPc s _, fun h => ?_, fun h => ?_⟩
  · rw [hskip h]; rfl
  · rw [hstay h]; rfl

/-! ### Jump targets as numbers (R84, R138) -/

@[simp] theorem zext16_toNat (nnn : Addr12) : (zext16 nnn).toNat = nnn.toNat := by
  unfold zext16
  bv_omega

theorem indexedTarget_toNat (nnn : Addr12) (v0 : Byte) :
    (indexedTarget nnn v0).toNat = nnn.toNat + v0.toNat := by
  unfold indexedTarget zext16 zextByte
  bv_omega

theorem jumpTarget_toNat_of_m0FFF {p : Params} (h : p.jumpMask = .m0FFF) (nnn : Addr12) :
    (jumpTarget p nnn).toNat = nnn.toNat := by
  have hmod : nnn.toNat &&& 2 ^ 12 - 1 = nnn.toNat % 2 ^ 12 := Nat.and_two_pow_sub_one_eq_mod _ 12
  rw [jumpTarget, h, BitVec.toNat_and, zext16_toNat]
  exact hmod.trans (Nat.mod_eq_of_lt nnn.isLt)

/-- The mask 0x0F00 clears the low byte of an address and keeps its high digit. -/
theorem and_0xF00_eq {a : Nat} (ha : a < 4096) : a &&& 0xF00 = a / 256 * 256 := by
  have hhigh : (a &&& 0xF00) / 2 ^ 8 = a / 2 ^ 8 &&& 2 ^ 4 - 1 := Nat.and_div_two_pow
  have hlow : (a &&& 0xF00) % 2 ^ 8 = a % 2 ^ 8 &&& 0 := Nat.and_mod_two_pow
  rw [Nat.and_two_pow_sub_one_eq_mod] at hhigh
  rw [Nat.and_zero] at hlow
  omega

theorem jumpTarget_toNat_of_m0F00 {p : Params} (h : p.jumpMask = .m0F00) (nnn : Addr12) :
    (jumpTarget p nnn).toNat = nnn.toNat / 256 * 256 := by
  rw [jumpTarget, h, BitVec.toNat_and, zext16_toNat]
  exact and_0xF00_eq nnn.isLt

/-! ### The call and the return -/

theorem exec_call_of_lt {s : State} (nnn : Addr12) (h : s.sp.val < 16) :
    exec (.call nnn) s = .next ((s.push s.pc h).setPc (zext16 nnn)) :=
  dif_pos h

theorem State.topOfStack_eq {s : State} {k : Fin 16} (hk : s.sp.val = k.val + 1)
    (h : 0 < s.sp.val) : s.topOfStack h = s.stackEntry k := by
  simp [State.topOfStack, hk]

theorem State.pop_sp_val {s : State} {k : Fin 16} (hk : s.sp.val = k.val + 1) :
    s.pop.sp.val = k.val := by
  simp [hk]

theorem exec_ret_of_sp_eq {s : State} {k : Fin 16} (hk : s.sp.val = k.val + 1) :
    exec .ret s = .next (s.pop.setPc (s.stackEntry k + 2#16)) := by
  have hpos : 0 < s.sp.val := by omega
  rw [← State.topOfStack_eq hk hpos]
  exact dif_pos hpos

/-- Settles O13: with SP = k + 1 the most recent return address is entry k. -/
theorem retPopsAndReturns : Obligations.RetPopsAndReturns := by
  refine ⟨encodedAs_row .ret, fun s k hk => ?_, fun s h0 => (Stops.ret (by omega)).exec_eq⟩
  exact ⟨_, exec_ret_of_sp_eq hk, State.pop_sp_val hk, rfl, onlyChanges_pop_setPc s _⟩

/-- Settles O15: the entry at SP is the one pushed, and it is PC, the address of the call. -/
theorem callPushesItsOwnAddress : Obligations.CallPushesItsOwnAddress := by
  refine ⟨encodedAs_row (.call 0), fun s nnn k hk => ?_,
    fun s nnn h16 => (Stops.call nnn (by omega)).exec_eq⟩
  have hsp : s.sp.val < 16 := hk ▸ k.isLt
  refine ⟨_, exec_call_of_lt nnn hsp, ?_, congrArg (· + 1) hk, zext16_toNat nnn,
    onlyChanges_push_setPc hk s.pc _ hsp⟩
  rw [State.setPc_stackEntry, State.push_stackEntry, if_pos hk.symm]

/-! ### Jumps and skips -/

/-- Settles O14: the mask keeps the address, or its high digit only. -/
theorem jpSetsPc : Obligations.JpSetsPc := by
  refine ⟨encodedAs_row (.jp 0), fun s nnn =>
    ⟨_, rfl, fun h => ?_, fun h => ?_, onlyChanges_setPc s _⟩⟩
  · exact jumpTarget_toNat_of_m0FFF h nnn
  · exact jumpTarget_toNat_of_m0F00 h nnn

/-- Settles O18: a 12-bit address plus a byte fits a word, so the sum is exact. -/
theorem jpV0AddsV0 : Obligations.JpV0AddsV0 :=
  ⟨encodedAs_row (.jpV0 0),
    fun s nnn => ⟨_, rfl, indexedTarget_toNat nnn (s.getV reg0), onlyChanges_setPc s _⟩⟩

/-- Settles O16: the skip rule, with the comparison of the register and the immediate. -/
theorem skipOnImmediate : Obligations.SkipOnImmediate := by
  refine ⟨encodedAs_row (.seImm 0 0), encodedAs_row (.sneImm 0 0), fun s x nn => ⟨?_, ?_⟩⟩
  · exact ⟨_, rfl, s.skipIf_spec beq_iff_eq.2 beq_eq_false_iff_ne.2⟩
  · exact ⟨_, rfl, s.skipIf_spec bne_iff_ne.2 bne_eq_false_iff_eq.2⟩

/-- Settles O17: the skip rule, with the comparison of the two registers. -/
theorem skipOnRegisters : Obligations.SkipOnRegisters := by
  refine ⟨encodedAs_row (.seReg 0 0), encodedAs_row (.sneReg 0 0), fun s x y => ⟨?_, ?_⟩⟩
  · exact ⟨_, rfl, s.skipIf_spec beq_iff_eq.2 beq_eq_false_iff_ne.2⟩
  · exact ⟨_, rfl, s.skipIf_spec bne_iff_ne.2 bne_eq_false_iff_eq.2⟩

/-! ### A return address along a run (R140) -/

/-- A call writes the entry at SP and a return writes none, so an entry below SP stays. -/
theorem exec_next_stackEntry_of_lt {i : Instr} {s t : State} (h : exec i s = .next t) {k : Fin 16}
    (hk : k.val < s.sp.val) : t.stackEntry k = s.stackEntry k := by
  cases i
  case call nnn =>
    obtain ⟨hsp, rfl⟩ := exec_call_next h
    exact State.push_stackEntry_of_ne s.pc hsp hk.ne
  case ret =>
    obtain ⟨_, rfl⟩ := exec_ret_next h
    rfl
  all_goals exact (exec_next_stack h (by simp) (by simp)).2 k

theorem step_next_stackEntry_of_lt {s t : State} (h : step s = .next t) {k : Fin 16}
    (hk : k.val < s.sp.val) : t.stackEntry k = s.stackEntry k := by
  obtain ⟨-, -, ⟨-, rfl⟩ | ⟨i, u, -, hexec, rfl⟩⟩ := step_next h
  · rfl
  · exact exec_next_stackEntry_of_lt hexec hk

/-- Along a run an entry stays as long as SP stays above it. -/
theorem IsRun.stackEntry_eq {σ : Nat → State} {n a b : Nat} (hrun : IsRun σ n) (hab : a ≤ b)
    (hbn : b ≤ n) {k : Fin 16} (hsp : ∀ j, a ≤ j → j < b → k.val < (σ j).sp.val) :
    (σ b).stackEntry k = (σ a).stackEntry k := by
  induction b, hab using Nat.le_induction with
  | base => rfl
  | succ b hab ih =>
    obtain ⟨keys, hstep⟩ := hrun b (by omega)
    have hlast : (σ (b + 1)).stackEntry k = (σ b).stackEntry k :=
      step_next_stackEntry_of_lt hstep (hsp b hab (by omega))
    exact hlast.trans (ih (by omega) fun j haj hjb => hsp j haj (by omega))

theorem step_call_stackEntry {s t : State} {nnn : Addr12} (hi : s.fetches (.call nnn))
    (h : step s = .next t) : ∃ k : Fin 16, s.sp.val = k.val ∧ t.stackEntry k = s.pc := by
  obtain ⟨u, hexec, rfl⟩ := hi.exec_next h
  obtain ⟨hsp, rfl⟩ := exec_call_next hexec
  exact ⟨⟨s.sp.val, hsp⟩, rfl, (s.push_stackEntry s.pc hsp _).trans (if_pos rfl)⟩

theorem step_ret_pc_sp {s t : State} {k : Fin 16} (hi : s.fetches .ret) (h : step s = .next t)
    (hk : s.sp.val = k.val + 1) : t.pc = s.stackEntry k + 2#16 ∧ t.sp.val = k.val := by
  obtain ⟨u, hexec, rfl⟩ := hi.exec_next h
  cases hexec.symm.trans (exec_ret_of_sp_eq hk)
  exact ⟨rfl, State.pop_sp_val hk⟩

/-- Settles O19: the call pushes its own address at entry k = SP, the entry stays while SP is above k,
and the return that finds SP = k + 1 reads it. -/
theorem callReturnRoundTrip : Obligations.CallReturnRoundTrip := by
  rintro σ n hrun ⟨nnn, hcall⟩ hret hspn habove
  have hn : 1 ≤ n := Nat.one_le_iff_ne_zero.2 (by rintro rfl; omega)
  obtain ⟨keys₀, hfirst⟩ := hrun 0 (by omega)
  obtain ⟨keys, hlast⟩ := hrun n (by omega)
  obtain ⟨k, hk, hpushed⟩ := step_call_stackEntry ((State.fetches_hostKeys keys₀).2 hcall) hfirst
  simp only [hostKeys_sp, hostKeys_pc] at hk hpushed
  have hkept : (σ n).stackEntry k = (σ 1).stackEntry k :=
    hrun.stackEntry_eq hn (by omega) fun j h1 hjn => hk ▸ habove j h1 hjn.le
  obtain ⟨hpc, hsp⟩ :=
    step_ret_pc_sp (k := k) ((State.fetches_hostKeys keys).2 hret) hlast (hspn.trans (hk ▸ rfl))
  rw [hostKeys_stackEntry, hkept, hpushed] at hpc
  exact ⟨hpc, Fin.ext (hsp.trans hk.symm)⟩

end Sys2Proof.Machine
end

section
/-! PROOFS. The statements about the instruction ALU (42_alu.md). Each of its instructions is one of two
updates, and each update has one rule: `State.setV_advance_spec` where only `V[x]` is written, and
`State.setResultAndFlag_advance_spec` where VF is written after it (R160). What is left of a statement is
a fact about bytes. -/

namespace Sys2Proof.Machine

/-! ### The two updates of the ALU -/

theorem OnlyChanges.setV {s t : State} {parts : List Part} (h : OnlyChanges s t parts) {x : Reg}
    (hx : .v x ∈ parts) (b : Byte) : OnlyChanges s (t.setV x b) parts := by
  intro p hp
  cases p
  case v r =>
    have hr : r ≠ x := by rintro rfl; exact hp hx
    exact (t.setV_getV_of_ne b hr).trans (h _ hp)
  all_goals exact h _ hp

/-- An instruction that writes `V[x]` and no flag. -/
theorem State.setV_advance_spec (s : State) (x : Reg) (b : Byte) :
    (s.setV x b).advance.getV x = b ∧ (s.setV x b).advance.pc = s.pc + 2#16 ∧
      OnlyChanges s (s.setV x b).advance [.v x, .pc] :=
  ⟨s.setV_getV_same x b, rfl,
    ((OnlyChanges.refl s _).setV (by simp) b).setPc (by simp) _⟩

/-- An instruction that writes `V[x]` and then a flag: with `x = F` the flag is what VF holds (R160). -/
theorem State.setResultAndFlag_advance_spec (s : State) (x : Reg) (b : Byte) (f : Bool) :
    (x ≠ regF → (s.setResultAndFlag x b f).advance.getV x = b) ∧
      (s.setResultAndFlag x b f).advance.getV regF = flagByte f ∧
      (s.setResultAndFlag x b f).advance.pc = s.pc + 2#16 ∧
      OnlyChanges s (s.setResultAndFlag x b f).advance [.v x, .v regF, .pc] := by
  refine ⟨fun hx => ?_, State.setV_getV_same _ _ _, rfl, ?_⟩
  · have hres := s.setResultAndFlag_getV x x b f
    rwa [if_neg hx, if_pos rfl] at hres
  · have hres : OnlyChanges s (s.setV x b) [.v x, .v regF, .pc] :=
      (OnlyChanges.refl s _).setV (by simp) b
    exact (hres.setV (by simp) (flagByte f)).setPc (by simp) _

/-! ### Results and flags as numbers (R167 to R171) -/

theorem flagByte_toNat (f : Bool) : (flagByte f).toNat = f.toNat := by
  cases f <;> rfl

theorem flagByte_decide (p : Prop) [Decidable p] :
    flagByte (decide p) = if p then 1#8 else 0#8 := by
  by_cases hp : p <;> simp [flagByte, hp]

/-- A difference of bytes is the difference of the numbers, modulo 256. -/
theorem byte_sub_toNat (a b : Byte) : ((a - b).toNat : Int) = (a.toNat - b.toNat : Int) % 256 := by
  have ha := a.isLt
  have hb := b.isLt
  rw [BitVec.toNat_sub]
  omega

theorem flagByte_shiftOutLow_toNat (a : Byte) : (flagByte (shiftOutLow a)).toNat = a.toNat % 2 := by
  rw [flagByte_toNat, shiftOutLow, BitVec.getLsbD, Nat.toNat_testBit, pow_zero, Nat.div_one]

theorem flagByte_shiftOutHigh_toNat (a : Byte) :
    (flagByte (shiftOutHigh a)).toNat = a.toNat / 128 := by
  have ha := a.isLt
  rw [flagByte_toNat, shiftOutHigh, BitVec.getLsbD, Nat.toNat_testBit]
  omega

/-! ### Instructions that write no flag -/

/-- Settles O21: the rule for a write of `V[x]`; a sum of bytes is the sum of the numbers modulo 256. -/
theorem immediateLoadAndAdd : Obligations.ImmediateLoadAndAdd := by
  refine ⟨encodedAs_row (.ldImm 0 0), encodedAs_row (.addImm 0 0), fun s x nn => ⟨?_, ?_⟩⟩
  · exact ⟨_, rfl, s.setV_advance_spec x nn⟩
  · obtain ⟨hres, hrest⟩ := s.setV_advance_spec x (s.getV x + nn)
    exact ⟨_, rfl, by rw [hres, BitVec.toNat_add], hrest⟩

/-- Settles O22: the rule for a write of `V[x]`, with the operation read bit by bit. -/
theorem copyAndBitwise : Obligations.CopyAndBitwise := by
  refine ⟨encodedAs_row (.ldReg 0 0), encodedAs_row (.or 0 0), encodedAs_row (.and 0 0),
    encodedAs_row (.xor 0 0), fun s x y => ⟨?_, ?_, ?_, ?_⟩⟩
  · exact ⟨_, rfl, s.setV_advance_spec x (s.getV y)⟩
  · obtain ⟨hres, hpc, hframe⟩ := s.setV_advance_spec x (s.getV x ||| s.getV y)
    exact ⟨_, rfl, hpc, hframe, fun b _ => by rw [hres, BitVec.getLsbD_or]⟩
  · obtain ⟨hres, hpc, hframe⟩ := s.setV_advance_spec x (s.getV x &&& s.getV y)
    exact ⟨_, rfl, hpc, hframe, fun b _ => by rw [hres, BitVec.getLsbD_and]⟩
  · obtain ⟨hres, hpc, hframe⟩ := s.setV_advance_spec x (s.getV x ^^^ s.getV y)
    exact ⟨_, rfl, hpc, hframe, fun b _ => by rw [hres, BitVec.getLsbD_xor, Bool.xor]⟩

/-- Settles O26: the rule for a write of `V[x]`, which asks nothing of the random byte. -/
theorem rndMasksTheRandomByte : Obligations.RndMasksTheRandomByte :=
  ⟨encodedAs_row (.rnd 0 0), fun s x nn => ⟨_, rfl, s.setV_advance_spec x (s.randomByte &&& nn)⟩⟩

/-! ### Instructions that write a flag -/

/-- Settles O23: the rule for a result and a flag, with the carry of the exact sum. -/
theorem addSetsCarry : Obligations.AddSetsCarry := by
  refine ⟨encodedAs_row (.addReg 0 0), fun s x y => ?_⟩
  obtain ⟨hres, hflag, hrest⟩ := s.setResultAndFlag_advance_spec x (s.getV x + s.getV y)
    (carryFlag (s.getV x) (s.getV y))
  exact ⟨_, rfl, fun hx => by rw [hres hx, BitVec.toNat_add], hflag.trans (flagByte_decide _), hrest⟩

/-- A subtraction with NOT borrow, whichever registers hold the operands (R168, R170). -/
theorem setDifference_advance_spec {s t : State} {x : Reg} {a b : Byte}
    (h : t = (s.setResultAndFlag x (a - b) (notBorrowFlag a b)).advance) :
    (x ≠ regF → ((t.getV x).toNat : Int) = (a.toNat - b.toNat : Int) % 256) ∧
      t.getV regF = (if a.toNat ≥ b.toNat then 1#8 else 0#8) ∧
      t.pc = s.pc + 2#16 ∧ OnlyChanges s t [.v x, .v regF, .pc] := by
  subst h
  obtain ⟨hres, hflag, hrest⟩ := s.setResultAndFlag_advance_spec x (a - b) (notBorrowFlag a b)
  exact ⟨fun hx => by rw [hres hx, byte_sub_toNat], hflag.trans (flagByte_decide _), hrest⟩

/-- Settles O24: one subtraction, with the operands exchanged in `8xy7`. -/
theorem subtractSetsNotBorrow : Obligations.SubtractSetsNotBorrow :=
  ⟨encodedAs_row (.sub 0 0), encodedAs_row (.subn 0 0), fun _ _ _ =>
    ⟨⟨_, rfl, setDifference_advance_spec rfl⟩, ⟨_, rfl, setDifference_advance_spec rfl⟩⟩⟩

/-- Settles O25: the rule for a result and a flag, with the shift and its lost bit as numbers. -/
theorem shiftsSetTheBitShiftedOut : Obligations.ShiftsSetTheBitShiftedOut := by
  refine ⟨encodedAs_row (.shr 0 0), encodedAs_row (.shl 0 0), fun s x y => ⟨?_, ?_⟩⟩
  · obtain ⟨hres, hflag, hrest⟩ :=
      s.setResultAndFlag_advance_spec x (s.getV x >>> 1) (shiftOutLow (s.getV x))
    exact ⟨_, rfl, fun hx => by rw [hres hx, BitVec.toNat_ushiftRight, Nat.shiftRight_one],
      by rw [hflag, flagByte_shiftOutLow_toNat], hrest⟩
  · obtain ⟨hres, hflag, hrest⟩ :=
      s.setResultAndFlag_advance_spec x (s.getV x <<< 1) (shiftOutHigh (s.getV x))
    exact ⟨_, rfl, fun hx => by rw [hres hx, BitVec.toNat_shiftLeft, Nat.shiftLeft_eq],
      by rw [hflag, flagByte_shiftOutHigh_toNat], hrest⟩

end Sys2Proof.Machine
end

section
/-! PROOFS. The statements about the index register and memory (43_index_memory.md). The two stores are one
idea, `StoredAtIndex`: the access check passed, and memory reads as before but for the block from `I`. What
is left is the frame of each operation and the access check at its two bounds. -/

namespace Sys2Proof.Machine

/-! ### Frames of the operations on I, memory and a block of registers -/

theorem OnlyChanges.setIndex {s t : State} {parts : List Part} (h : OnlyChanges s t parts)
    (hindex : .index ∈ parts) (w : Word) : OnlyChanges s (t.setIndex w) parts := by
  intro p hp
  cases p
  case index => exact absurd hindex hp
  all_goals exact h _ hp

theorem Part.mem_mem_memBlock {a b n : Nat} : Part.mem b ∈ Part.memBlock a n ↔ a ≤ b ∧ b < a + n := by
  simp only [Part.memBlock, List.mem_map, List.mem_range, Part.mem.injEq]
  constructor
  · rintro ⟨k, hk, rfl⟩
    omega
  · intro h
    exact ⟨b - a, by omega, by omega⟩

/-- A run of stores writes no byte outside its block (R57). -/
theorem OnlyChanges.storeBytes {s t : State} {parts : List Part} (h : OnlyChanges s t parts) {a : Nat}
    {bs : List Byte} (hblock : Part.memBlock a bs.length ⊆ parts) :
    OnlyChanges s (t.storeBytes a bs) parts := by
  intro p hp
  cases p
  case mem b =>
    have hout : ¬ (a ≤ b ∧ b < a + bs.length) := fun hin => hp (hblock (Part.mem_mem_memBlock.2 hin))
    exact (t.storeBytes_readMem_outside a bs b (by omega)).trans (h _ hp)
  all_goals exact h _ hp

theorem Part.v_mem_regBlock {x r : Reg} : Part.v r ∈ Part.regBlock x ↔ r ≤ x := by
  simp [Part.regBlock]

/-- A load of a block of registers writes no register beyond it (R205). -/
theorem OnlyChanges.setRegBlock {s t : State} {parts : List Part} (h : OnlyChanges s t parts) {x : Reg}
    (hblock : Part.regBlock x ⊆ parts) (f : Nat → Byte) : OnlyChanges s (t.setRegBlock x f) parts := by
  intro p hp
  cases p
  case v r =>
    have hr : ¬ r ≤ x := fun hle => hp (hblock (Part.v_mem_regBlock.2 hle))
    exact ((t.setRegBlock_getV x r f).trans (if_neg hr)).trans (h _ hp)
  all_goals exact h _ hp

/-! ### The access check at its bounds (R56, R59) -/

theorem State.badAddress_write_none {s : State} {n : Nat} (hin : s.index.toNat + n ≤ 0xFFF)
    (hpol : s.params.fontWritePolicy = .write ∨ 0x050 ≤ s.index.toNat) :
    s.badAddress .write (n + 1) = none :=
  State.badAddress_none (.inr hin) (.inr (.inr hpol))

/-- Under FONT_WRITE_POLICY = fault a store that begins in the font stops there (R59). -/
theorem State.badAddress_font {s : State} {n : Nat} (hin : s.index.toNat + n ≤ 0xFFF)
    (hpol : s.params.fontWritePolicy = .fault) (hfont : s.index.toNat < 0x050) :
    s.badAddress .write (n + 1) = some s.index.toNat := by
  obtain ⟨-, -, habove⟩ | ⟨hsome, -⟩ | ⟨hnone, -⟩ := s.badAddress_cases .write (n + 1)
  · omega
  · exact hsome
  · have := State.le_index_of_badAddress_none hnone n.succ_pos hpol
    omega

/-! ### Addresses in I as numbers (R201, R202, R204, R205) -/

theorem glyphAddr_toNat (digit : Byte) : (glyphAddr digit).toNat = digit.toNat * 5 := by
  unfold glyphAddr zextByte
  bv_omega

/-- After a block that lies inside memory, I holds the address past it: no truncation takes place. -/
theorem indirectAddr_succ_toNat {index : Word} {n : Nat} (hin : index.toNat + n ≤ 0xFFF) :
    (BitVec.ofNat 16 (indirectAddr index (n + 1))).toNat = index.toNat + n + 1 := by
  rw [BitVec.toNat_ofNat, indirectAddr]
  omega

/-! ### Instructions on I alone -/

/-- An instruction that writes I and nothing else. -/
theorem State.setIndex_advance_spec (s : State) (w : Word) :
    (s.setIndex w).advance.index = w ∧ (s.setIndex w).advance.pc = s.pc + 2#16 ∧
      OnlyChanges s (s.setIndex w).advance [.index, .pc] :=
  ⟨rfl, rfl, ((OnlyChanges.refl s _).setIndex (by simp) w).setPc (by simp) _⟩

/-- Settles O29: the rule for a write of I, with the two addresses as numbers. -/
theorem indexIsSet : Obligations.IndexIsSet := by
  refine ⟨encodedAs_row (.ldI 0), encodedAs_row (.ldFVx 0), fun s nnn => ?_, fun s x => ?_⟩
  · obtain ⟨hindex, hrest⟩ := s.setIndex_advance_spec (zext16 nnn)
    exact ⟨_, rfl, by rw [hindex, zext16_toNat], hrest⟩
  · obtain ⟨hindex, hrest⟩ := s.setIndex_advance_spec (glyphAddr (s.getV x))
    exact ⟨_, rfl, by rw [hindex, glyphAddr_toNat], hrest⟩

/-- Settles O30: I takes the exact sum modulo 2^16, and the flag, written last, compares the exact sum. -/
theorem addToIndexSetsOverflow : Obligations.AddToIndexSetsOverflow := by
  refine ⟨encodedAs_row (.addIVx 0), fun s x =>
    ⟨_, rfl, BitVec.toNat_ofNat _ _, (State.setV_getV_same _ _ _).trans (flagByte_decide _), rfl, ?_⟩⟩
  have hindex : OnlyChanges s (s.setIndex (BitVec.ofNat 16 (indexSum s.index (s.getV x))))
      [.index, .v regF, .pc] := (OnlyChanges.refl s _).setIndex (by simp) _
  exact (hindex.setV (by simp) _).setPc (by simp) _

/-! ### What a completed store or load leaves -/

theorem exec_ldBVx_next {s t : State} {x : Reg} (h : exec (.ldBVx x) s = .next t) :
    StoredAtIndex s t (decimalDigits (s.getV x)) ∧ t.pc = s.pc + 2#16 ∧
      OnlyChanges s t (.pc :: Part.memBlock s.index.toNat 3) := by
  obtain ⟨hacc, rfl⟩ := withAccess_next h
  exact ⟨⟨hacc, fun _ => rfl⟩, rfl,
    ((OnlyChanges.refl s _).storeBytes (List.subset_cons_self _ _)).setPc (by simp) _⟩

theorem exec_ldMemVx_next {s t : State} {x : Reg} (h : exec (.ldMemVx x) s = .next t) :
    StoredAtIndex s t (s.regBlock x) ∧
      t.index = BitVec.ofNat 16 (indirectAddr s.index (x.val + 1)) ∧ t.pc = s.pc + 2#16 ∧
      OnlyChanges s t (.index :: .pc :: Part.memBlock s.index.toNat (x.val + 1)) := by
  obtain ⟨hacc, rfl⟩ := withAccess_next h
  have hlen := s.regBlock_length x
  refine ⟨⟨hlen.symm ▸ hacc, fun _ => rfl⟩, rfl, rfl, ?_⟩
  have hstore : OnlyChanges s (s.storeBytes s.index.toNat (s.regBlock x))
      (.index :: .pc :: Part.memBlock s.index.toNat (x.val + 1)) :=
    (OnlyChanges.refl s _).storeBytes (hlen.symm ▸ fun _ hp => by simp [hp])
  exact (hstore.setIndex (by simp) _).setPc (by simp) _

theorem exec_ldVxMem_next {s t : State} {x : Reg} (h : exec (.ldVxMem x) s = .next t) :
    (∀ k : Reg, k.val ≤ x.val → t.getV k = s.readMem (s.index.toNat + k.val)) ∧
      t.index = BitVec.ofNat 16 (indirectAddr s.index (x.val + 1)) ∧ t.pc = s.pc + 2#16 ∧
      OnlyChanges s t (.index :: .pc :: Part.regBlock x) := by
  obtain ⟨-, rfl⟩ := withAccess_next h
  refine ⟨fun k hk => (s.setRegBlock_getV x k _).trans (if_pos hk), rfl, rfl, ?_⟩
  have hload : OnlyChanges s (s.setRegBlock x fun k => s.readMem (indirectAddr s.index k))
      (.index :: .pc :: Part.regBlock x) :=
    (OnlyChanges.refl s _).setRegBlock (fun _ hp => by simp [hp]) _
  exact (hload.setIndex (by simp) _).setPc (by simp) _

/-- The stored block of `Fx55`, register by register (R204). -/
theorem StoredAtIndex.readMem_regBlock {s t : State} {x : Reg} (h : StoredAtIndex s t (s.regBlock x))
    {k : Reg} (hk : k.val ≤ x.val) : t.readMem (s.index.toNat + k.val) = s.getV k := by
  have hlt : k.val < (s.regBlock x).length := by rw [State.regBlock_length]; omega
  rw [h.readMem hlt, State.regBlock_getElem]

/-- The stored block of `Fx33` as numbers: each digit fits its byte (R203). -/
theorem StoredAtIndex.readMem_decimalDigits {s t : State} {v : Byte}
    (h : StoredAtIndex s t (decimalDigits v)) :
    (t.readMem s.index.toNat).toNat = v.toNat / 100 ∧
      (t.readMem (s.index.toNat + 1)).toNat = v.toNat / 10 % 10 ∧
      (t.readMem (s.index.toNat + 2)).toNat = v.toNat % 10 := by
  have hv := v.isLt
  have hhundreds : t.readMem s.index.toNat = _ := h.readMem (k := 0) (by simp)
  rw [hhundreds, h.readMem (k := 1) (by simp), h.readMem (k := 2) (by simp)]
  simp only [decimalDigits, List.getElem_cons_zero, List.getElem_cons_succ, BitVec.toNat_ofNat]
  omega

/-- Settles O31: inside the bounds the check passes and the block is the three digits; beyond either bound
the check names the address. -/
theorem decimalDigitsAreStored : Obligations.DecimalDigitsAreStored := by
  refine ⟨encodedAs_row (.ldBVx 0), fun s x hin hpol => ?_, fun s x habove => ?_,
    fun s x hpol hfont => ?_⟩
  · have hexec : exec (.ldBVx x) s = .next _ :=
      withAccess_of_none _ (State.badAddress_write_none hin hpol)
    obtain ⟨hstored, hpc, hframe⟩ := exec_ldBVx_next hexec
    obtain ⟨hhundreds, htens, hones⟩ := hstored.readMem_decimalDigits
    exact ⟨_, hexec, hhundreds, htens, hones, hpc, hframe⟩
  · exact (Stops.ldBVx x (State.badAddress_above .write (by omega) habove)).exec_eq
  · exact (Stops.ldBVx x (State.badAddress_font (by omega) hpol hfont)).exec_eq

/-- Settles O32: inside the bounds the check passes and the block is the registers; beyond either bound the
check names the address. -/
theorem registersAreStored : Obligations.RegistersAreStored := by
  refine ⟨encodedAs_row (.ldMemVx 0), fun s x hin hpol => ?_, fun s x habove => ?_,
    fun s x hpol hfont => ?_⟩
  · have hexec : exec (.ldMemVx x) s = .next _ :=
      withAccess_of_none _ (State.badAddress_write_none hin hpol)
    obtain ⟨hstored, hindex, hpc, hframe⟩ := exec_ldMemVx_next hexec
    exact ⟨_, hexec, fun k => hstored.readMem_regBlock, by rw [hindex, indirectAddr_succ_toNat hin],
      hpc, hframe⟩
  · exact (Stops.ldMemVx x (State.badAddress_above .write x.val.succ_pos habove)).exec_eq
  · exact (Stops.ldMemVx x (State.badAddress_font (by omega) hpol hfont)).exec_eq

/-- Settles O33: a read is checked against the end of memory only, and the block is what memory holds. -/
theorem registersAreLoaded : Obligations.RegistersAreLoaded := by
  refine ⟨encodedAs_row (.ldVxMem 0), fun s x hin => ?_, fun s x habove => ?_⟩
  · have hexec : exec (.ldVxMem x) s = .next _ :=
      withAccess_of_none _ (State.badAddress_none (.inr hin) (.inr (.inl rfl)))
    obtain ⟨hload, hindex, hpc, hframe⟩ := exec_ldVxMem_next hexec
    exact ⟨_, hexec, hload, by rw [hindex, indirectAddr_succ_toNat hin], hpc, hframe⟩
  · exact (Stops.ldVxMem x (State.badAddress_above .read x.val.succ_pos habove)).exec_eq

/-- Settles O34: the load reads each register's byte where the store put it, and the byte is still there. -/
theorem storedRegistersLoadBack : Obligations.StoredRegistersLoadBack := by
  intro s t w u x hstore hindex hkept hload k hk
  obtain ⟨hstored, -⟩ := exec_ldMemVx_next hstore
  obtain ⟨hloaded, -⟩ := exec_ldVxMem_next hload
  calc u.getV k = w.readMem (s.index.toNat + k.val) := by rw [hloaded k hk, hindex]
    _ = t.readMem (s.index.toNat + k.val) := hkept _ (by omega) (by omega)
    _ = s.getV k := hstored.readMem_regBlock hk

end Sys2Proof.Machine
end

section
/-! PROOFS. The statements about the framebuffer (44_display.md). The one idea is that a `Dxyn` that
completes is told by two facts about the screens before and after it: a cell differs exactly when the
sprite covers it (`exec_drw_cell_ne_iff`), and VF says whether a cell that was on is now off
(`exec_drw_vf_eq_one_iff`). -/

namespace Sys2Proof.Machine

/-! ### Cells and the frame of a new screen -/

theorem State.cell_congr {s t : State} (h : t.fb = s.fb) (c : Nat) : t.cell c = s.cell c :=
  congrArg (Screen.cell · c) h

/-- States differ only in cells inside the framebuffer. -/
theorem State.lt_of_cell_ne {s t : State} {c : Nat} (h : t.cell c ≠ s.cell c) : c < 2048 := by
  by_contra hle
  exact h ((Screen.cell_of_le t.fb (not_lt.1 hle)).trans (Screen.cell_of_le s.fb (not_lt.1 hle)).symm)

theorem Part.fb_mem_screen {c : Nat} : Part.fb c ∈ Part.screen ↔ c < 2048 := by
  simp [Part.screen, fbCells]

theorem OnlyChanges.setScreen {s t : State} {parts : List Part} (h : OnlyChanges s t parts)
    (hdraw : .draw ∈ parts) {fb : Screen}
    (hfb : ∀ c, (t.setScreen fb).cell c ≠ s.cell c → .fb c ∈ parts) :
    OnlyChanges s (t.setScreen fb) parts := by
  intro p hp
  cases p
  case draw => exact absurd hdraw hp
  case fb c => exact not_not.1 fun hne => hp (hfb c hne)
  all_goals exact h _ hp

/-- Only `00E0` and `Dxyn` write the framebuffer (R220). -/
theorem exec_next_cell {i : Instr} {s t : State} (h : exec i s = .next t) (hcls : i ≠ .cls)
    (hdrw : ∀ x y n, i ≠ .drw x y n) (c : Nat) : t.cell c = s.cell c := by
  obtain ⟨-, -, -, -, -, -, -, -, -, hscreen⟩ := exec_next_frame h
  obtain ⟨hfb, -⟩ := hscreen hcls hdrw
  exact State.cell_congr hfb c

/-- Settles O42: by the frame of `exec`; an unknown word, the timers and the report leave the screen. -/
theorem onlyClsAndDrwChangeTheScreen : Obligations.OnlyClsAndDrwChangeTheScreen := by
  intro s t h hcls hdrw c
  obtain ⟨hl, hcan, ⟨-, rfl⟩ | ⟨i, u, hdec, hexec, rfl⟩⟩ := step_next h
  · rfl
  · have hi : s.fetches i := ⟨hl, hcan, hdec⟩
    exact exec_next_cell hexec (fun e => hcls (e ▸ hi)) (fun x y n e => hdrw x y n (e ▸ hi)) c

/-- Settles O38: every cell of the blank screen is off, and only cells inside the framebuffer differ. -/
theorem clsClearsTheScreen : Obligations.ClsClearsTheScreen := by
  refine ⟨encodedAs_row .cls, fun s => ⟨_, rfl, fun c _ => Screen.cell_blank c, rfl, rfl, ?_⟩⟩
  have hscreen : OnlyChanges s (s.setScreen Screen.blank) (.draw :: .pc :: Part.screen) :=
    (OnlyChanges.refl s _).setScreen (by simp) fun c hne => by
      simp [Part.fb_mem_screen, State.lt_of_cell_ne hne]
  exact hscreen.setPc (by simp) _

/-! ### What a completed `Dxyn` leaves -/

/-- A cell that was on in the first state is off in the second (R224). -/
def Erased (s t : State) : Prop := ∃ c < 2048, s.cell c = true ∧ t.cell c = false

theorem flagByte_eq_one_iff {f : Bool} : flagByte f = 1#8 ↔ f = true := by
  cases f <;> decide

theorem State.spriteRows_length_le (s : State) (n : Height) : (s.spriteRows n.val).length ≤ 32 := by
  rw [State.spriteRows_length]
  omega

/-- With `n = 0` the sprite covers nothing (R225). -/
theorem not_spriteCovers_zero (s : State) (x y : Reg) (c : Nat) : ¬ SpriteCovers s x y 0 c := by
  rintro ⟨r, hr, -⟩
  exact Nat.not_lt_zero r hr

section
variable {s t : State} {x y : Reg} {n : Height}

/-- A read beyond 0xFFF is the only thing that stops a `Dxyn`. -/
theorem exec_drw_of_inside (h : n.val = 0 ∨ s.index.toNat + n.val - 1 ≤ 0xFFF) :
    ∃ t, exec (.drw x y n) s = .next t :=
  ⟨_, withAccess_of_none _ (State.badAddress_none h (.inr (.inl rfl)))⟩

variable (h : exec (.drw x y n) s = .next t)
include h

theorem exec_drw_cell (c : Nat) : t.cell c =
    (s.cell c ^^ decide (c ∈ spriteCells (s.getV x) (s.getV y) (s.spriteRows n.val))) := by
  obtain ⟨-, rfl⟩ := withAccess_next h
  obtain ⟨hcell, -⟩ := drawSprite_spec s.fb (s.getV x) (s.getV y) _ (s.spriteRows_length_le n)
  exact hcell c

theorem exec_drw_cell_ne_iff (c : Nat) : t.cell c ≠ s.cell c ↔ SpriteCovers s x y n c := by
  rw [exec_drw_cell h, ← mem_spriteCells_iff_covers]
  cases s.cell c <;> simp

/-- A draw erases exactly the cells under the sprite that were on. -/
theorem exec_drw_erased_iff : Erased s t ↔ ∃ c, SpriteCovers s x y n c ∧ s.cell c = true := by
  constructor
  · rintro ⟨c, -, hon, hoff⟩
    exact ⟨c, (exec_drw_cell_ne_iff h c).1 (by simp [hon, hoff]), hon⟩
  · rintro ⟨c, hcov, hon⟩
    have hne := (exec_drw_cell_ne_iff h c).2 hcov
    exact ⟨c, State.lt_of_cell_ne hne, hon, by simpa [hon] using hne⟩

theorem exec_drw_vf_eq_one_iff : t.getV regF = 1#8 ↔ Erased s t := by
  rw [exec_drw_erased_iff h]
  obtain ⟨-, rfl⟩ := withAccess_next h
  obtain ⟨-, hhit⟩ := drawSprite_spec s.fb (s.getV x) (s.getV y) _ (s.spriteRows_length_le n)
  simp only [mem_spriteCells_iff_covers] at hhit
  refine Iff.trans ?_ hhit
  rw [State.advance_eq, State.setPc_getV, State.setV_getV_same, flagByte_eq_one_iff]

theorem exec_drw_vf_eq_zero (hnone : ¬ Erased s t) : t.getV regF = 0#8 := by
  obtain ⟨hflag, -⟩ := vfIsAFlagOnlyOfTheSeven
  have hvf := hflag _ s t h (.inr (.inl ⟨x, y, n, rfl⟩))
  exact hvf.resolve_right (mt (exec_drw_vf_eq_one_iff h).1 hnone)

theorem exec_drw_draw_pc : t.draw = true ∧ t.pc = s.pc + 2#16 := by
  obtain ⟨-, rfl⟩ := withAccess_next h
  exact ⟨rfl, rfl⟩

/-- The frame of `Dxyn`: of the framebuffer only the cells that the sprite covers. -/
theorem exec_drw_onlyChanges {parts : List Part} (hparts : [.v regF, .draw, .pc] ⊆ parts)
    (hfb : ∀ c, SpriteCovers s x y n c → .fb c ∈ parts) : OnlyChanges s t parts := by
  have hcell := fun c => (exec_drw_cell_ne_iff h c).1
  obtain ⟨-, rfl⟩ := withAccess_next h
  refine OnlyChanges.setPc (OnlyChanges.setV ?_ (hparts (by simp)) _) (hparts (by simp)) _
  exact (OnlyChanges.refl s _).setScreen (hparts (by simp)) fun c hne => hfb c (hcell c hne)

theorem exec_drw_frame : OnlyChanges s t (.v regF :: .draw :: .pc :: Part.screen) :=
  exec_drw_onlyChanges h (by simp) fun c hc => by
    simp [Part.fb_mem_screen, State.lt_of_cell_ne ((exec_drw_cell_ne_iff h c).2 hc)]

/-- A sprite drawn again at coordinates that are not in VF covers the same cells. -/
theorem exec_drw_spriteCovers_iff (hx : x ≠ regF) (hy : y ≠ regF) (c : Nat) :
    SpriteCovers t x y n c ↔ SpriteCovers s x y n c := by
  have hframe := exec_drw_frame h
  have hvx : t.getV x = s.getV x := hframe (.v x) (by simp [Part.screen, hx])
  have hvy : t.getV y = s.getV y := hframe (.v y) (by simp [Part.screen, hy])
  have hindex : t.index = s.index := hframe .index (by simp [Part.screen])
  have hmem : ∀ a, t.readMem a = s.readMem a := fun a => hframe (.mem a) (by simp [Part.screen])
  simp only [SpriteCovers, hvx, hvy, hindex, hmem]

end

/-- Settles O39: inside memory the draw completes and flips the covered cells; beyond it the access check
names the address. -/
theorem drawFlipsTheCoveredCells : Obligations.DrawFlipsTheCoveredCells := by
  refine ⟨encodedAs_row (.drw 0 0 0), fun s x y n hin => ?_, fun s x y n hn habove => ?_⟩
  · obtain ⟨t, h⟩ := exec_drw_of_inside (x := x) (y := y) hin
    obtain ⟨hdraw, hpc⟩ := exec_drw_draw_pc h
    exact ⟨t, h, fun c _ => exec_drw_cell_ne_iff h c, (exec_drw_vf_eq_one_iff h).2,
      exec_drw_vf_eq_zero h, hdraw, hpc, exec_drw_frame h⟩
  · exact (Stops.drw x y n (State.badAddress_above .read hn habove)).exec_eq

/-- Settles O40: no row covers no cell, so nothing is erased and the frame lists no cell. -/
theorem drawOfNoRows : Obligations.DrawOfNoRows := by
  intro s x y
  have hnone := not_spriteCovers_zero s x y
  obtain ⟨t, h⟩ := exec_drw_of_inside (s := s) (x := x) (y := y) (n := 0) (.inl rfl)
  obtain ⟨hdraw, hpc⟩ := exec_drw_draw_pc h
  have herased : ¬ Erased s t := by
    rw [exec_drw_erased_iff h]
    rintro ⟨c, hcov, -⟩
    exact hnone c hcov
  exact ⟨t, h, exec_drw_vf_eq_zero h herased, hdraw, hpc,
    exec_drw_onlyChanges h (List.Subset.refl _) fun c hcov => absurd hcov (hnone c)⟩

/-- A bit that changes both times or neither time ends as it began. -/
theorem bool_eq_of_ne_iff_ne : ∀ {a b c : Bool}, (b ≠ a ↔ c ≠ b) → c = a := by
  decide

/-- Settles O41: both draws flip the same cells, so each cell is flipped twice or not at all, and a cell
that the second erases is one that was off and that the first turned on. -/
theorem drawingTwiceRestoresTheScreen : Obligations.DrawingTwiceRestoresTheScreen := by
  intro s t u x y n hx hy hfirst hsecond
  have hflip := exec_drw_cell_ne_iff hfirst
  have hflipBack : ∀ c, u.cell c ≠ t.cell c ↔ SpriteCovers s x y n c := fun c =>
    (exec_drw_cell_ne_iff hsecond c).trans (exec_drw_spriteCovers_iff hfirst hx hy c)
  have hrestored : ∀ c, u.cell c = s.cell c := fun c =>
    bool_eq_of_ne_iff_ne ((hflip c).trans (hflipBack c).symm)
  refine ⟨fun c _ => hrestored c, (exec_drw_vf_eq_one_iff hsecond).trans ?_⟩
  refine exists_congr fun c => and_congr_right fun _ => ?_
  rw [hrestored c, ← hflip c]
  cases s.cell c <;> simp

end Sys2Proof.Machine
end

section
/-! PROOFS. The statements about keys and timers (45_keys_timers.md). A cycle is two moves: execute leaves a
state `u` (`exec_skp_of_le`, `exec_ldVxK_of_lowestKey`, the two timer writes), and the timer and report steps
turn it into `u.endCycle .ok` (`State.fetches.step_eq`), whose counts are those of `u` less one. -/

namespace Sys2Proof.Machine

/-! ### Steps 4 and 5 on the state that execute left -/

theorem State.fetches.step_eq {s u : State} {i : Instr} (hi : s.fetches i) (h : exec i s = .next u) :
    step s = .next (u.endCycle .ok) := by
  rw [step_of_fetches hi, h]

/-- Both counts of a completed cycle are those that execute left, less one and never below 0 (R271, R272). -/
theorem State.endCycle_dt_toNat (s : State) (status : Status) :
    (s.endCycle status).dt.toNat = s.dt.toNat - 1 :=
  countDown_toNat s.dt

theorem State.endCycle_st_toNat (s : State) (status : Status) :
    (s.endCycle status).st.toNat = s.st.toNat - 1 :=
  countDown_toNat s.st

/-- The beep comes in the cycle whose timer step takes ST from 1 to 0 (R272). -/
theorem State.endCycle_beep_iff (s : State) (status : Status) :
    (s.endCycle status).out.beep = true ↔ s.st = 1#8 :=
  beq_iff_eq

theorem onlyChanges_endCycle (s : State) (status : Status) :
    OnlyChanges s (s.endCycle status) Part.cycleParts := by
  intro p hp
  cases p
  case dt | st | draw | out | rndIndex | lifecycle => exact absurd (by decide) hp
  all_goals rfl

/-! ### The timers -/

theorem OnlyChanges.setDt {s t : State} {parts : List Part} (h : OnlyChanges s t parts)
    (hdt : .dt ∈ parts) (b : Byte) : OnlyChanges s (t.setDt b) parts := by
  intro p hp
  cases p
  case dt => exact absurd hdt hp
  all_goals exact h _ hp

theorem OnlyChanges.setSt {s t : State} {parts : List Part} (h : OnlyChanges s t parts)
    (hst : .st ∈ parts) (b : Byte) : OnlyChanges s (t.setSt b) parts := by
  intro p hp
  cases p
  case st => exact absurd hst hp
  all_goals exact h _ hp

/-- Settles O45: execute reads DT before the timer step, and the timer step leaves the registers. -/
theorem delayTimerIsRead : Obligations.DelayTimerIsRead := by
  refine ⟨encodedAs_row (.ldVxDt 0), fun s x => ⟨_, rfl, s.setV_advance_spec x s.dt⟩,
    fun s x hi => ⟨_, hi.step_eq rfl, ?_, ?_⟩⟩
  · exact s.setV_getV_same x s.dt
  · exact State.endCycle_dt_toNat _ _

/-- Settles O47: execute writes the timer before the timer step, which therefore counts, and tests for the
beep, the value just written. -/
theorem timersAreSet : Obligations.TimersAreSet := by
  refine ⟨encodedAs_row (.ldDtVx 0), encodedAs_row (.ldStVx 0), fun s x => ⟨?_, ?_⟩,
    fun s x hi => ⟨_, hi.step_eq rfl, State.endCycle_dt_toNat _ _⟩,
    fun s x hi => ⟨_, hi.step_eq rfl, State.endCycle_st_toNat _ _, State.endCycle_beep_iff _ _⟩⟩
  · exact ⟨_, rfl, rfl, rfl, ((OnlyChanges.refl s _).setDt (by simp) _).setPc (by simp) _⟩
  · exact ⟨_, rfl, rfl, rfl, ((OnlyChanges.refl s _).setSt (by simp) _).setPc (by simp) _⟩

/-! ### The key tests -/

theorem exec_skp_of_le {s : State} {x : Reg} (h : (s.getV x).toNat ≤ 15) :
    exec (.skp x) s = .next (s.skipIf (s.keys.getLsbD (s.getV x).toNat)) :=
  withKey_of_le s.skipIf h

theorem exec_sknp_of_le {s : State} {x : Reg} (h : (s.getV x).toNat ≤ 15) :
    exec (.sknp x) s = .next (s.skipIf (!s.keys.getLsbD (s.getV x).toNat)) :=
  withKey_of_le (fun pressed => s.skipIf (!pressed)) h

/-- Settles O44: the skip rule, with the level of key `V[x]` or its negation; an index that is no key
stops. -/
theorem skipOnKey : Obligations.SkipOnKey := by
  refine ⟨encodedAs_row (.skp 0), encodedAs_row (.sknp 0), fun s x hkey => ⟨?_, ?_⟩,
    fun s x hbad => ⟨(Stops.skp x hbad).exec_eq, (Stops.sknp x hbad).exec_eq⟩⟩
  · exact ⟨_, exec_skp_of_le hkey, s.skipIf_spec id id⟩
  · exact ⟨_, exec_sknp_of_le hkey, s.skipIf_spec (by simp) (by simp)⟩

/-! ### The key wait -/

theorem lowestKey_eq_none {keys : BitVec 16} (h : ∀ k < 16, keys.getLsbD k = false) :
    lowestKey keys = none := by
  obtain ⟨hnone, -⟩ | ⟨k, hk, -, hon, -⟩ := lowestKey_cases keys
  · exact hnone
  · exact absurd hon (by simp [h k hk])

/-- A pressed key below which none is pressed is the one the scan finds. -/
theorem lowestKey_eq_some {keys : BitVec 16} {k : Nat} (hk : k < 16) (hon : keys.getLsbD k = true)
    (hmin : ∀ j < k, keys.getLsbD j = false) : lowestKey keys = some k := by
  obtain ⟨-, hoff⟩ | ⟨k', -, hsome, hon', hmin'⟩ := lowestKey_cases keys
  · exact absurd hon (by simp [hoff k hk])
  · obtain hlt | rfl | hgt := lt_trichotomy k k'
    · exact absurd hon (by simp [hmin' k hlt])
    · exact hsome
    · exact absurd hon' (by simp [hmin k' hgt])

theorem exec_ldVxK_of_no_key {s : State} {x : Reg} (h : ∀ k < 16, s.keys.getLsbD k = false) :
    exec (.ldVxK x) s = .next s := by
  simp only [exec, execLdVxK, lowestKey_eq_none h]

theorem exec_ldVxK_of_lowestKey {s : State} {x : Reg} {k : Nat} (h : lowestKey s.keys = some k) :
    exec (.ldVxK x) s = .next (s.setV x (BitVec.ofNat 8 k)).advance := by
  simp only [exec, execLdVxK, h]

/-- Settles O46: with no key pressed execute leaves the state as it is, so the cycle is steps 4 and 5 alone;
else the scan finds the least pressed key, which fits a byte. -/
theorem keyWait : Obligations.KeyWait := by
  refine ⟨encodedAs_row (.ldVxK 0), fun s x hnone => exec_ldVxK_of_no_key hnone,
    fun s x k hk hon hmin => ?_, fun s x hi hnone => ?_⟩
  · obtain ⟨hres, hpc, hframe⟩ := s.setV_advance_spec x (BitVec.ofNat 8 k)
    have hbyte : (BitVec.ofNat 8 k).toNat = k := by
      rw [BitVec.toNat_ofNat]
      omega
    exact ⟨_, exec_ldVxK_of_lowestKey (lowestKey_eq_some hk hon hmin), by rw [hres, hbyte], hpc, hframe⟩
  · exact ⟨_, hi.step_eq (exec_ldVxK_of_no_key hnone), s.endCycle_dt_toNat _, s.endCycle_st_toNat _,
      s.endCycle_beep_iff _, rfl, rfl, onlyChanges_endCycle s _⟩

end Sys2Proof.Machine
end

section
/-! PROOFS. The statements about conditions and timers (60_exceptions.md). For the taxonomy, the conditions
an instruction raises are already listed (`Stops`); what is left is the access check as inequalities on I and
that no instruction is refused. For the timers, a completed cycle counts both down from the state that
execute left (`step_next_endCycle`), and a run is one decrement after the other (`eq_sub_of_succ_eq_sub_one`). -/

namespace Sys2Proof.Machine

/-! ### The taxonomy of execute (R261) -/

theorem withAccess_next_or_fault (s : State) (kind : AccessKind) (n : Nat) (t : State) :
    (∃ u, withAccess s kind n t = .next u) ∨ ∃ f, withAccess s kind n t = .fault f := by
  cases h : s.badAddress kind n with
  | none => exact .inl ⟨_, withAccess_of_none t h⟩
  | some a => exact .inr ⟨_, withAccess_of_some t h⟩

theorem withKey_next_or_fault (s : State) (k : Byte) (next : Bool → State) :
    (∃ u, withKey s k next = .next u) ∨ ∃ f, withKey s k next = .fault f :=
  (le_or_gt k.toNat 15).imp (fun h => ⟨_, withKey_of_le next h⟩) fun h => ⟨_, withKey_of_gt next h⟩

/-- Execute answers a next state or a fatal condition, and refuses nothing. -/
theorem exec_next_or_fault (i : Instr) (s : State) :
    (∃ t, exec i s = .next t) ∨ ∃ f, exec i s = .fault f := by
  cases i
  case call nnn =>
    by_cases h : s.sp.val < 16
    · exact .inl ⟨_, exec_call_of_lt nnn h⟩
    · exact .inr ⟨_, (Stops.call nnn h).exec_eq⟩
  case ret =>
    by_cases h : 0 < s.sp.val
    · exact .inl ⟨_, dif_pos h⟩
    · exact .inr ⟨_, (Stops.ret h).exec_eq⟩
  case skp x => exact withKey_next_or_fault s (s.getV x) s.skipIf
  case sknp x => exact withKey_next_or_fault s (s.getV x) fun pressed => s.skipIf (!pressed)
  case drw | ldBVx | ldMemVx | ldVxMem => exact withAccess_next_or_fault s _ _ _
  case ldVxK x =>
    cases h : lowestKey s.keys with
    | none => exact .inl ⟨s, by simp only [exec, execLdVxK, h]⟩
    | some k => exact .inl ⟨_, exec_ldVxK_of_lowestKey h⟩
  all_goals exact .inl ⟨_, rfl⟩

/-- A read stops exactly where it leaves memory (R56). -/
theorem State.badAddress_read_eq_some_iff {s : State} {n a : Nat} :
    s.badAddress .read n = some a ↔
      0 < n ∧ 0xFFF < s.index.toNat + n - 1 ∧ a = max s.index.toNat 0x1000 := by
  constructor
  · intro h
    obtain ⟨e, hn, habove⟩ | ⟨-, -, -, hkind, -⟩ | ⟨e, -⟩ := s.badAddress_cases .read n
    · exact ⟨hn, habove, Option.some.inj (h.symm.trans e)⟩
    · cases hkind
    · cases h.symm.trans e
  · rintro ⟨hn, habove, rfl⟩
    exact State.badAddress_above .read hn habove

/-- A store to `I`, ..., `I + n` stops exactly where it leaves memory, or begins in the font under
FONT_WRITE_POLICY = fault (R56, R59). -/
theorem State.badAddress_write_fault_iff {s : State} {n : Nat} {f : Fault} :
    (∃ a, s.badAddress .write (n + 1) = some a ∧ f = .invalidMemoryAccess a) ↔
      (0xFFF < s.index.toNat + n ∧ f = .invalidMemoryAccess (max s.index.toNat 0x1000)) ∨
      (s.index.toNat + n ≤ 0xFFF ∧ s.params.fontWritePolicy = .fault ∧ s.index.toNat < 0x050 ∧
        f = .invalidMemoryAccess s.index.toNat) := by
  constructor
  · rintro ⟨a, h, rfl⟩
    obtain ⟨e, -, habove⟩ | ⟨e, -, hin, -, hpol, hfont⟩ | ⟨e, -⟩ := s.badAddress_cases .write (n + 1)
    · cases h.symm.trans e
      exact .inl ⟨habove, rfl⟩
    · cases h.symm.trans e
      exact .inr ⟨hin, hpol, hfont, rfl⟩
    · cases h.symm.trans e
  · rintro (⟨habove, rfl⟩ | ⟨hin, hpol, hfont, rfl⟩)
    · exact ⟨_, State.badAddress_above .write n.succ_pos habove, rfl⟩
    · exact ⟨_, State.badAddress_font hin hpol hfont, rfl⟩

/-- Settles O11: the conditions are those of `Stops`, clause by clause, with the access check read as
inequalities on I; SP is at most 16, and every other answer of execute is a next state. -/
theorem execStopsExactlyAsListed : Obligations.ExecStopsExactlyAsListed := by
  refine fun i s => ⟨exec_next_or_fault i s, fun f => exec_fault_iff.trans ⟨fun h => ?_, ?_⟩⟩
  · cases h with
    | call nnn h => exact .inl ⟨nnn, rfl, by omega, rfl⟩
    | ret h => exact .inr (.inl ⟨rfl, by omega, rfl⟩)
    | skp x h => exact .inr (.inr (.inl ⟨x, .inl rfl, h, rfl⟩))
    | sknp x h => exact .inr (.inr (.inl ⟨x, .inr rfl, h, rfl⟩))
    | drw x y n h =>
      obtain ⟨hn, habove, rfl⟩ := State.badAddress_read_eq_some_iff.1 h
      exact .inr (.inr (.inr (.inl ⟨x, y, n, rfl, hn, habove, rfl⟩)))
    | ldVxMem x h =>
      obtain ⟨-, habove, rfl⟩ := State.badAddress_read_eq_some_iff.1 h
      exact .inr (.inr (.inr (.inr (.inl ⟨x, rfl, habove, rfl⟩))))
    | ldBVx x h =>
      exact .inr (.inr (.inr (.inr (.inr ⟨x, 2, .inl ⟨rfl, rfl⟩,
        State.badAddress_write_fault_iff.1 ⟨_, h, rfl⟩⟩))))
    | ldMemVx x h =>
      exact .inr (.inr (.inr (.inr (.inr ⟨x, x.val, .inr ⟨rfl, rfl⟩,
        State.badAddress_write_fault_iff.1 ⟨_, h, rfl⟩⟩))))
  · rintro (⟨nnn, rfl, hsp, rfl⟩ | ⟨rfl, hsp, rfl⟩ | ⟨x, rfl | rfl, hkey, rfl⟩ |
      ⟨x, y, n, rfl, hn, habove, rfl⟩ | ⟨x, rfl, habove, rfl⟩ | ⟨x, n, hinstr, hstop⟩)
    · exact .call nnn (by omega)
    · exact .ret (by omega)
    · exact .skp x hkey
    · exact .sknp x hkey
    · exact .drw x y n (State.badAddress_read_eq_some_iff.2 ⟨hn, habove, rfl⟩)
    · exact .ldVxMem x (State.badAddress_read_eq_some_iff.2 ⟨x.val.succ_pos, habove, rfl⟩)
    · obtain ⟨a, hbad, rfl⟩ := State.badAddress_write_fault_iff.2 hstop
      obtain ⟨rfl, rfl⟩ | ⟨rfl, rfl⟩ := hinstr
      · exact .ldBVx x hbad
      · exact .ldMemVx x hbad

/-! ### The timer step of one cycle (R270 to R272) -/

theorem State.endCycle_timers_spec (u : State) (status : Status) :
    (0 < u.dt.toNat → (u.endCycle status).dt.toNat = u.dt.toNat - 1) ∧
    (u.dt.toNat = 0 → (u.endCycle status).dt.toNat = 0) ∧
    (0 < u.st.toNat → (u.endCycle status).st.toNat = u.st.toNat - 1) ∧
    (u.st.toNat = 0 → (u.endCycle status).st.toNat = 0) ∧
    ((u.endCycle status).out.beep = true ↔ u.st = 1#8) := by
  rw [u.endCycle_dt_toNat, u.endCycle_st_toNat]
  exact ⟨fun _ => rfl, by omega, fun _ => rfl, by omega, u.endCycle_beep_iff status⟩

/-- Settles O7: both kinds of cycle end with the timer step, on what execute left or, for an unknown word,
on the state with PC advanced. -/
theorem timersCountDownOncePerCycle : Obligations.TimersCountDownOncePerCycle :=
  ⟨fun _ u _ hi hexec => ⟨_, hi.step_eq hexec, u.endCycle_timers_spec _⟩,
    fun s hl hpc hdec => ⟨_, step_of_unknown hl hpc hdec, s.advance.endCycle_timers_spec _⟩⟩

/-! ### The timers along a run (R269, R272, R273) -/

/-- A cycle counts down from a state whose timers are those it began with, unless its instruction writes
them. -/
theorem step_next_endCycle {s t : State} (h : step s = .next t) :
    ∃ (u : State) (status : Status), t = u.endCycle status ∧
      ((∀ x, ¬ s.fetches (.ldStVx x)) → u.st = s.st) ∧
      ((∀ x, ¬ s.fetches (.ldDtVx x)) → u.dt = s.dt) := by
  obtain ⟨hl, hcan, ⟨-, rfl⟩ | ⟨i, u, hdec, hexec, rfl⟩⟩ := step_next h
  · exact ⟨s.advance, _, rfl, fun _ => rfl, fun _ => rfl⟩
  · have hi : s.fetches i := ⟨hl, hcan, hdec⟩
    obtain ⟨-, -, -, -, -, hst, hdt, -⟩ := exec_next_frame hexec
    exact ⟨u, _, rfl, fun hno => hst fun x e => hno x (e ▸ hi),
      fun hno => hdt fun x e => hno x (e ▸ hi)⟩

theorem IsRun.st_succ {σ : Nat → State} {n k : Nat} (hrun : IsRun σ n) (hk : k < n)
    (hno : ∀ x, ¬ (σ k).fetches (.ldStVx x)) :
    (σ (k + 1)).st.toNat = (σ k).st.toNat - 1 ∧
      ((σ (k + 1)).out.beep = true ↔ (σ k).st.toNat = 1) := by
  obtain ⟨keys, hstep⟩ := hrun k hk
  obtain ⟨u, status, ht, hst, -⟩ := step_next_endCycle hstep
  have hu : u.st = (σ k).st := hst hno
  rw [ht, u.endCycle_st_toNat, u.endCycle_beep_iff, hu]
  exact ⟨rfl, BitVec.toNat_inj.symm⟩

theorem IsRun.dt_succ {σ : Nat → State} {n k : Nat} (hrun : IsRun σ n) (hk : k < n)
    (hno : ∀ x, ¬ (σ k).fetches (.ldDtVx x)) : (σ (k + 1)).dt.toNat = (σ k).dt.toNat - 1 := by
  obtain ⟨keys, hstep⟩ := hrun k hk
  obtain ⟨u, status, ht, -, hdt⟩ := step_next_endCycle hstep
  have hu : u.dt = (σ k).dt := hdt hno
  rw [ht, u.endCycle_dt_toNat, hu]

/-- A counter that loses 1 at each step has lost `k` after `k` steps, down to 0. -/
theorem eq_sub_of_succ_eq_sub_one {c : Nat → Nat} {n : Nat} (h : ∀ k < n, c (k + 1) = c k - 1) :
    ∀ k ≤ n, c k = c 0 - k := by
  intro k
  induction k with
  | zero => exact fun _ => rfl
  | succ k ih =>
    intro hk
    rw [h k hk, ih (by omega), Nat.sub_sub]

/-- Settles O48: after k cycles ST has lost k, so cycle k + 1 finds it at 1 exactly when its first value is
k + 1. -/
theorem soundTimerBeepsExactlyOnce : Obligations.SoundTimerBeepsExactlyOnce := by
  intro σ n hrun hno
  have hcount : ∀ k ≤ n, (σ k).st.toNat = (σ 0).st.toNat - k :=
    eq_sub_of_succ_eq_sub_one fun k hk => (hrun.st_succ hk (hno k hk)).1
  refine ⟨hcount, fun k hk => (hrun.st_succ hk (hno k hk)).2.trans ?_⟩
  rw [hcount k hk.le]
  omega

/-- Settles O49: each cycle of the run takes 1 from DT. -/
theorem delayTimerCountsCycles : Obligations.DelayTimerCountsCycles :=
  fun _ _ hrun hno => eq_sub_of_succ_eq_sub_one fun k hk => hrun.dt_succ hk (hno k hk)

end Sys2Proof.Machine
end

section
/-! PROOFS. The statements about reset, load and the end of a run (70_reset_and_hazards.md). A self-loop runs
nothing: its jump leaves the state as it is (`State.AtSelfLoop.exec_eq`), so its cycle is steps 4 and 5 alone.
A load is told by its three answers: stored, rejected, refused. -/

namespace Sys2Proof.Machine

/-! ### The self-loop (R313) -/

/-- A jump to its own address does nothing at all. -/
theorem exec_jp_of_target_eq_pc {s : State} {nnn : Addr12} (h : jumpTarget s.params nnn = s.pc) :
    exec (.jp nnn) s = .next s := by
  show Host.Outcome.next (s.setPc (jumpTarget s.params nnn)) = .next s
  rw [h]
  rfl

/-- Steps 4 and 5 write nothing that a fetch reads, but the lifecycle, which they leave at running. -/
theorem State.fetches.endCycle {s : State} {i : Instr} (h : s.fetches i) (status : Status) :
    (s.endCycle status).fetches i := by
  obtain ⟨-, hcan, hdec⟩ := h
  exact ⟨Lifecycle.noConfusion, hcan, hdec⟩

/-- Settles O58: the jump leaves the state as it is, and what steps 4 and 5 write is not read by the fetch. -/
theorem selfLoopOnlyTicks : Obligations.SelfLoopOnlyTicks := by
  rintro s ⟨nnn, hi, htarget⟩
  exact ⟨s.endCycle .ok, hi.step_eq (exec_jp_of_target_eq_pc htarget),
    ⟨nnn, hi.endCycle .ok, htarget⟩, onlyChanges_endCycle s .ok⟩

/-! ### The order of reset and cycle (R305) -/

/-- Settles O10: the cycle asks for the lifecycle before it fetches. -/
theorem cycleBeforeResetIsRefused : Obligations.CycleBeforeResetIsRefused :=
  fun _ hl => if_pos hl

/-! ### The three answers of a load (R302, R303, R304) -/

def State.setLifecycle (l : Lifecycle) (s : State) : State := { s with lifecycle := l }

@[simp] theorem State.setLifecycle_readMem (l : Lifecycle) (s : State) (a : Nat) :
    (s.setLifecycle l).readMem a = s.readMem a := rfl

theorem OnlyChanges.setLifecycle {s t : State} {parts : List Part} (h : OnlyChanges s t parts)
    (hlifecycle : .lifecycle ∈ parts) (l : Lifecycle) : OnlyChanges s (t.setLifecycle l) parts := by
  intro p hp
  cases p
  case lifecycle => exact absurd hlifecycle hp
  all_goals exact h _ hp

theorem hostLoad_of_le {s : State} {bytes : List Byte} (hl : s.lifecycle = .fresh)
    (h : bytes.length ≤ 3584) :
    hostLoad bytes s = .ok ((s.storeBytes progBase bytes).setLifecycle .running, .ok) := by
  rw [hostLoad, if_pos hl, if_pos (show romFits bytes = true from decide_eq_true h)]
  rfl

theorem hostLoad_of_gt {s : State} {bytes : List Byte} (hl : s.lifecycle = .fresh)
    (h : 3584 < bytes.length) : hostLoad bytes s = .ok (s, .romTooLarge bytes.length) := by
  have hfits : ¬ romFits bytes = true := by simpa [romFits] using h
  rw [hostLoad, if_pos hl, if_neg hfits]

theorem hostLoad_of_not_fresh {s : State} {bytes : List Byte} (hl : s.lifecycle ≠ .fresh) :
    hostLoad bytes s = .error .loadNotFresh :=
  if_neg hl

/-- A load that stores its bytes ends the fresh state. -/
theorem hostLoad_accepted_lifecycle {s t : State} {bytes : List Byte}
    (h : hostLoad bytes s = .ok (t, .ok)) : t.lifecycle = .running := by
  by_cases hl : s.lifecycle = .fresh
  · obtain hle | hgt := le_or_gt bytes.length 3584
    · rw [hostLoad_of_le hl hle] at h
      cases h
      rfl
    · rw [hostLoad_of_gt hl hgt] at h
      cases h
  · rw [hostLoad_of_not_fresh hl] at h
    cases h

/-- Settles O54: 3584 bytes from 0x200 end at the end of memory, so byte `j` is read back at `0x200 + j`. -/
theorem loadCopiesOrRejects : Obligations.LoadCopiesOrRejects := by
  refine ⟨fun s bytes hl hle => ⟨_, hostLoad_of_le hl hle, fun j hj => ?_, ?_⟩,
    fun s bytes hl hgt => hostLoad_of_gt hl hgt⟩
  · have hread := s.storeBytes_readMem 0x200 bytes (0x200 + j) (by omega)
    rw [dif_pos ⟨by omega, by omega⟩] at hread
    simpa using hread
  · have hstore : OnlyChanges s (s.storeBytes progBase bytes)
        (.lifecycle :: Part.memBlock 0x200 bytes.length) :=
      (OnlyChanges.refl s _).storeBytes (List.subset_cons_self _ _)
    exact hstore.setLifecycle List.mem_cons_self .running

/-- Settles O55: a completed cycle and an accepted load leave the lifecycle at running; a reset makes it
fresh, and then the length decides between the two answers of a load. -/
theorem loadNeedsAFreshReset : Obligations.LoadNeedsAFreshReset := by
  refine ⟨fun s t bytes hstep => hostLoad_of_not_fresh ?_,
    fun s t bytes bytes' hload => hostLoad_of_not_fresh ?_,
    fun s bytes hl => hostLoad_of_not_fresh ?_, fun s bytes => ?_⟩
  · obtain ⟨u, status, rfl, -⟩ := step_next_endCycle hstep
    exact Lifecycle.noConfusion
  · rw [hostLoad_accepted_lifecycle hload]
    exact Lifecycle.noConfusion
  · rw [hl]
    exact Lifecycle.noConfusion
  · have hfresh : (hostReset s).lifecycle = .fresh := rfl
    obtain hle | hgt := le_or_gt bytes.length 3584
    · exact ⟨_, hostLoad_of_le hfresh hle⟩
    · exact ⟨_, hostLoad_of_gt hfresh hgt⟩

end Sys2Proof.Machine
end
